-- ==== Sys2Proof/Word.lean ====
section
/-! DEFINITION. The widths of the block: the four operand widths and the sizes of its ports. -/

namespace Sys2Proof

/-- The operand widths a command word can name; there is no extended width (`00_scope.md` R7,
`30_encoding.md` R41). -/
inductive Width
  | w8 | w16 | w32 | w64
  deriving DecidableEq, Repr, Inhabited

/-- The width `w` in bits. -/
def Width.bits : Width → Nat
  | .w8 => 8
  | .w16 => 16
  | .w32 => 32
  | .w64 => 64

/-- The command word on port `cmd` (`10_state.md` R17). -/
abbrev CommandWord := BitVec 16

/-- The operand and result buses, ports `a` and `y` (`10_state.md` R18, R20). -/
abbrev BusWord := BitVec 64

/-- The shift-amount port `s` (`10_state.md` R19). -/
abbrev ShiftWord := BitVec 32

end Sys2Proof
end

