-- ==== Sys2Proof/Config.lean ====
section
/-! DEFINITION. The two build-time parameters of one instance of the block (`00_scope.md` R8, R9;
`10_state.md` R22), and the byte orders they speak of. -/

namespace Sys2Proof

/-- A byte order. There is no third value: a native order that is neither is excluded
(`00_scope.md` R8, `44_endianness.md` R88, `90_conflicts.md` C8). -/
inductive ByteOrder
  | little | big
  deriving DecidableEq, Repr, Inhabited

/-- A byte order tag, "one of exactly three symbolic values" (`44_endianness.md` R87). -/
inductive OrderTag
  | little | big | native
  deriving DecidableEq, Repr, Inhabited

/-- The constants of one instance: NATIVE_ORDER and STRICT_MODE. No command reads them as data or
writes them (`10_state.md` R22). -/
structure Config where
  nativeOrder : ByteOrder
  strictMode : Bool
  deriving DecidableEq, Repr, Inhabited

/-- The value NATIVE_ORDER has in an instance about which nothing is said. The spec leaves it OPEN,
with no default (`92_eei_decisions.md` D13, `93_implementation_defined.md` U11), so it has no body:
nothing can be proved of which order it is. Assumption log 2. -/
opaque Config.builtOrder : ByteOrder

/-- The instance the machine starts as when no parameters are given: NATIVE_ORDER open, STRICT_MODE
the default 0 of `00_scope.md` R9. Assumption log 2 and 3. -/
def Config.unspecified : Config :=
  { nativeOrder := Config.builtOrder, strictMode := false }

end Sys2Proof
end

