-- ==== Sys2Proof/Syntax.lean ====
section
/-! DEFINITION. The fifteen commands of `30_encoding.md` R43, one constructor per row of the opcode
table. A command word supplies nothing but a width and two order tags; operand and shift amount
come from the ports. -/

namespace Sys2Proof

/-- A command, decoded. The reserved operation number 15 has no constructor. -/
inductive Instr
  | clz (w : Width)
  | ctz (w : Width)
  | popcnt (w : Width)
  | rotl (w : Width)
  | rotr (w : Width)
  | bceil (w : Width)
  | bfloor (w : Width)
  | bwidth (w : Width)
  | bswap (w : Width)
  /-- `source` is the tag `ta`, `target` the tag `tb` (R39). -/
  | endconv (w : Width) (source target : OrderTag)
  | clo (w : Width)
  | cto (w : Width)
  | hsb (w : Width)
  | bitcast (w : Width)
  /-- `left` is the tag `ta`, `right` the tag `tb` (R39). -/
  | endeq (left right : OrderTag)
  deriving DecidableEq, Repr, Inhabited

end Sys2Proof
end

