-- ==== Sys2Proof/WellFormed.lean ====
section
/-! DEFINITION. Which commands exist in an instance. Widths and tags are right by their types; what
is left to check is STRICT_MODE, which removes BSWAP and ENDCONV (`30_encoding.md` R50). -/

namespace Sys2Proof

/-- The endianness-conversion surface that strict mode disables: BSWAP and ENDCONV, at every width
and with every tag. ENDEQ is not part of it (R50). -/
def Instr.isConversion : Instr → Bool
  | .bswap _ => true
  | .endconv _ _ _ => true
  | .clz _ => false
  | .ctz _ => false
  | .popcnt _ => false
  | .rotl _ => false
  | .rotr _ => false
  | .bceil _ => false
  | .bfloor _ => false
  | .bwidth _ => false
  | .clo _ => false
  | .cto _ => false
  | .hsb _ => false
  | .bitcast _ => false
  | .endeq _ _ => false

/-- The command exists in an instance whose STRICT_MODE is `strict`. -/
def Instr.wellFormed (strict : Bool) (i : Instr) : Bool :=
  !(strict && i.isConversion)

end Sys2Proof
end

