-- ==== Sys2Proof/Decode.lean ====
section
/-! DEFINITION. The decoder of `30_encoding.md` R52, the encoder of R53, and the opcode table of R56
as data. -/

namespace Sys2Proof

/-- Why a command word is illegal, by the six conditions of `30_encoding.md` R49. The reason is the
decoder's own name for its verdict: the block reports ILLEGAL and no cause (`60_exceptions.md`
R103). Assumption log 11. -/
inductive IllegalWord
  /-- Condition 1: `cmd[15:10] ≠ 0`. -/
  | reservedField
  /-- Condition 2: `op = 15`. -/
  | reservedOperation
  /-- Condition 3: tag fields that the command does not use are not zero. -/
  | unusedTags
  /-- Condition 4: a tag of `11` on ENDCONV or ENDEQ. -/
  | reservedTag
  /-- Condition 5: `wsel ≠ 0` on ENDEQ. -/
  | unusedWidth
  /-- Condition 6: BSWAP or ENDCONV with STRICT_MODE = 1. -/
  | disabledByStrictMode
  deriving DecidableEq, Repr

/-- The field `cmd[hi:lo]` as an unsigned number. -/
def CommandWord.field (c : CommandWord) (hi lo : Nat) : Nat :=
  (c.extractLsb hi lo).toNat

/-- Field `wsel` (R41): `w = 8 · 2^wsel`. A two-bit field has no value above 3. -/
def widthOfField : Nat → Width
  | 0 => .w8
  | 1 => .w16
  | 2 => .w32
  | _ => .w64

/-- Fields `ta` and `tb` (R42); `11` is reserved. -/
def tagOfField : Nat → Option OrderTag
  | 0 => some .little
  | 1 => some .big
  | 2 => some .native
  | _ => none

/-- The commands that use no tags, by operation number (R43). -/
def untaggedCommand (w : Width) : Nat → Option Instr
  | 0 => some (.clz w)
  | 1 => some (.ctz w)
  | 2 => some (.popcnt w)
  | 3 => some (.rotl w)
  | 4 => some (.rotr w)
  | 5 => some (.bceil w)
  | 6 => some (.bfloor w)
  | 7 => some (.bwidth w)
  | 8 => some (.bswap w)
  | 10 => some (.clo w)
  | 11 => some (.cto w)
  | 12 => some (.hsb w)
  | 13 => some (.bitcast w)
  | _ => none

/-- ENDCONV (R52). -/
def decodeConversion (strict : Bool) (wsel ta tb : Nat) : Except IllegalWord Instr :=
  match tagOfField ta, tagOfField tb with
  | some source, some target =>
    if strict then .error .disabledByStrictMode
    else .ok (.endconv (widthOfField wsel) source target)
  | _, _ => .error .reservedTag

/-- ENDEQ (R52). -/
def decodeTagEquality (wsel ta tb : Nat) : Except IllegalWord Instr :=
  match tagOfField ta, tagOfField tb with
  | some left, some right =>
    if wsel = 0 then .ok (.endeq left right) else .error .unusedWidth
  | _, _ => .error .reservedTag

/-- A command without tags (R52). -/
def decodeUntagged (strict : Bool) (op wsel ta tb : Nat) : Except IllegalWord Instr :=
  if ta ≠ 0 ∨ tb ≠ 0 then .error .unusedTags
  else match untaggedCommand (widthOfField wsel) op with
    | some i => if i.wellFormed strict then .ok i else .error .disabledByStrictMode
    | none => .error .reservedOperation

/-- The decoder, total on all 65536 words (`30_encoding.md` R52). -/
def decode (strict : Bool) (c : CommandWord) : Except IllegalWord Instr :=
  let op := c.field 3 0
  let wsel := c.field 5 4
  let ta := c.field 7 6
  let tb := c.field 9 8
  if c.field 15 10 ≠ 0 then .error .reservedField
  else if op = 15 then .error .reservedOperation
  else if op = 9 then decodeConversion strict wsel ta tb
  else if op = 14 then decodeTagEquality wsel ta tb
  else decodeUntagged strict op wsel ta tb

/-- The operation number of a command (R43). -/
def Instr.operation : Instr → Nat
  | .clz _ => 0
  | .ctz _ => 1
  | .popcnt _ => 2
  | .rotl _ => 3
  | .rotr _ => 4
  | .bceil _ => 5
  | .bfloor _ => 6
  | .bwidth _ => 7
  | .bswap _ => 8
  | .endconv _ _ _ => 9
  | .clo _ => 10
  | .cto _ => 11
  | .hsb _ => 12
  | .bitcast _ => 13
  | .endeq _ _ => 14

/-- The value of `wsel` for a width (R41). -/
def fieldOfWidth : Width → Nat
  | .w8 => 0
  | .w16 => 1
  | .w32 => 2
  | .w64 => 3

/-- The value of `ta` or `tb` for a tag (R42). -/
def fieldOfTag : OrderTag → Nat
  | .little => 0
  | .big => 1
  | .native => 2

/-- The operand width of a command; ENDEQ has no value operand, hence none (R41, R45). -/
def Instr.width? : Instr → Option Width
  | .clz w | .ctz w | .popcnt w | .rotl w | .rotr w | .bceil w | .bfloor w | .bwidth w => some w
  | .bswap w | .endconv w _ _ | .clo w | .cto w | .hsb w | .bitcast w => some w
  | .endeq _ _ => none

/-- The tags of a command: only ENDCONV and ENDEQ have them (R42). -/
def Instr.tags? : Instr → Option (OrderTag × OrderTag)
  | .endconv _ source target => some (source, target)
  | .endeq left right => some (left, right)
  | .clz _ | .ctz _ | .popcnt _ | .rotl _ | .rotr _ | .bceil _ | .bfloor _ | .bwidth _ => none
  | .bswap _ | .clo _ | .cto _ | .hsb _ | .bitcast _ => none

/-- The encoder: `cmd = op + 16·wsel + 64·ta + 256·tb`, unused fields 0 (`30_encoding.md` R53). -/
def encode (i : Instr) : CommandWord :=
  let wsel := (i.width?.map fieldOfWidth).getD 0
  let ta := (i.tags?.map fun t => fieldOfTag t.1).getD 0
  let tb := (i.tags?.map fun t => fieldOfTag t.2).getD 0
  BitVec.ofNat 16 (i.operation + 16 * wsel + 64 * ta + 256 * tb)

/-- The mnemonic of a command, as the opcode table spells it (R43). -/
def Instr.mnemonic : Instr → String
  | .clz _ => "CLZ"
  | .ctz _ => "CTZ"
  | .popcnt _ => "POPCNT"
  | .rotl _ => "ROTL"
  | .rotr _ => "ROTR"
  | .bceil _ => "BCEIL"
  | .bfloor _ => "BFLOOR"
  | .bwidth _ => "BWIDTH"
  | .bswap _ => "BSWAP"
  | .endconv _ _ _ => "ENDCONV"
  | .clo _ => "CLO"
  | .cto _ => "CTO"
  | .hsb _ => "HSB"
  | .bitcast _ => "BITCAST"
  | .endeq _ _ => "ENDEQ"

/-- A row of the opcode table (`30_encoding.md` R56). -/
structure OpcodeRow where
  mnemonic : String
  mask : CommandWord
  pattern : CommandWord
  /-- The constraint `ta ≠ 3 and tb ≠ 3`. -/
  tagged : Bool
  /-- `requires STRICT_MODE = 0`. -/
  needsConversions : Bool
  deriving DecidableEq, Repr

/-- A row of a command that uses no tags: every bit but `wsel` is fixed. -/
def untaggedRow (mnemonic : String) (op : CommandWord) : OpcodeRow :=
  { mnemonic, mask := 0xFFCF, pattern := op, tagged := false, needsConversions := false }

/-- The fifteen rows of `opcode_table.json`. -/
def opcodeTable : List OpcodeRow :=
  [ untaggedRow "CLZ" 0x0000, untaggedRow "CTZ" 0x0001, untaggedRow "POPCNT" 0x0002,
    untaggedRow "ROTL" 0x0003, untaggedRow "ROTR" 0x0004, untaggedRow "BCEIL" 0x0005,
    untaggedRow "BFLOOR" 0x0006, untaggedRow "BWIDTH" 0x0007 ] ++
  [ { untaggedRow "BSWAP" 0x0008 with needsConversions := true },
    { mnemonic := "ENDCONV", mask := 0xFC0F, pattern := 0x0009, tagged := true,
      needsConversions := true },
    untaggedRow "CLO" 0x000A, untaggedRow "CTO" 0x000B, untaggedRow "HSB" 0x000C,
    untaggedRow "BITCAST" 0x000D,
    { mnemonic := "ENDEQ", mask := 0xFC3F, pattern := 0x000E, tagged := true,
      needsConversions := false } ]

/-- A command word selects a row: `(c & mask) = match`, the row's constraint holds, and the row is
not one that STRICT_MODE removes (R56). -/
def OpcodeRow.selects (row : OpcodeRow) (strict : Bool) (c : CommandWord) : Bool :=
  (c &&& row.mask == row.pattern) &&
  (!row.tagged || (c.field 7 6 != 3 && c.field 9 8 != 3)) &&
  !(strict && row.needsConversions)

/-- The instruction the decoder reads from a word of the opcode table. The block has one 16-bit
format and no memory, so there is no byte order of the word to choose: the word is the port `cmd`
(`30_encoding.md` R37). The instance is the default one, STRICT_MODE = 0 (`00_scope.md` R9,
assumption log 10). -/
def decodeTableWord (nbits w : Nat) : Option Instr :=
  match decode false (BitVec.ofNat 16 (w % 2 ^ nbits)) with
  | .ok i => some i
  | .error _ => none

end Sys2Proof
end

