-- ==== Sys2Proof/Machine/State.lean ====
section
/-! DEFINITION. The state of the machine. The block itself has none (`10_state.md` R13 to R15): what
stands here are its five ports, its two build constants, and whether its inputs have been driven. -/

namespace Sys2Proof.Machine

/-- The two error outcomes (`60_exceptions.md` R100). -/
inductive ErrorKind
  /-- IllegalCommand: the command word is a reserved encoding (R101). -/
  | illegal
  /-- PreconditionViolation: BCEIL of an operand above `2^(w-1)` (R102). -/
  | precond
  deriving DecidableEq, Repr

/-- The outcome of a transaction (`60_exceptions.md` R100). An error carries no `y`: the port then
holds an unspecified value that no claim may use (R105). Assumption log 7. -/
inductive Answer
  | ok (y : BusWord)
  | error (e : ErrorKind)
  deriving DecidableEq, Repr

/-- What the host presents: one value of the triple `(cmd, a, s)` (`30_encoding.md` R38). -/
structure Command where
  cmd : CommandWord
  a : BusWord
  s : ShiftWord
  deriving DecidableEq, Repr

/-- The machine: one instance of the block with what is on its ports. -/
structure State where
  /-- NATIVE_ORDER and STRICT_MODE, constants of the instance: no step changes them
  (`10_state.md` R22). Assumption log 1. -/
  config : Config
  /-- Input port `cmd` (R17). -/
  cmd : CommandWord
  /-- Input port `a` (R18). -/
  a : BusWord
  /-- Input port `s` (R19). -/
  s : ShiftWord
  /-- The model's own: the host has driven the inputs (`70_reset_and_hazards.md` R117).
  Assumption log 5. -/
  driven : Bool
  /-- The output ports `y` and `err` (R20, R21) as the outcome they carry; none while they mean
  nothing (R23, `70_reset_and_hazards.md` R117, R119). Assumption log 6. -/
  out : Option Answer
  deriving DecidableEq, Repr

/-- Why the machine stops. -/
inductive Fault
  /-- Raised by `step` alone: a transaction is asked for before the host has presented a command.
  The spec has no such transaction ("a model has no such moment", `70_reset_and_hazards.md` R117).
  Safe: nothing can be proved of what the outputs show then. -/
  | inputsNotDriven
  deriving DecidableEq, Repr

/-- Why an instruction has no meaning. -/
inductive Refusal
  /-- Raised by an arm of `exec` that has no meaning yet; no arm does. Safe. -/
  | notModelled (mnemonic : String)
  deriving DecidableEq, Repr

/-- An instance with the given parameters at power-up: no input driven, no output that means
anything. There is no reset and there are no reset values (`10_state.md` R23,
`70_reset_and_hazards.md` R116, R117); the zeros on the undriven ports are assumption log 4. -/
def State.powerUp (config : Config) : State :=
  { config, cmd := 0, a := 0, s := 0, driven := false, out := none }

/-- Power-up of the instance whose parameters are left open. -/
def State.reset : State := State.powerUp Config.unspecified

end Sys2Proof.Machine
end

