-- ==== Sys2Proof/Machine/Ops.lean ====
section
/-! DEFINITION. The operations every command is made of: driving the inputs, fetching the command
word, driving the outputs, raising an error. There is no memory, so there is no memory operation
(`20_memory.md` R25, R36). -/

namespace Sys2Proof.Machine

/-- The host presents a command. What the outputs showed belongs to the inputs before and means
nothing once they change (`70_reset_and_hazards.md` R119). -/
def State.present (s : State) (c : Command) : State :=
  { s with cmd := c.cmd, a := c.a, s := c.s, driven := true, out := none }

/-- The host drives the port `cmd` and leaves `a` and `s` as they stand. -/
def State.presentWord (s : State) (c : CommandWord) : State :=
  s.present { cmd := c, a := s.a, s := s.s }

/-- The command word: it is on its port, nothing is fetched from anywhere (`10_state.md` R14). -/
def State.fetch (s : State) : CommandWord := s.cmd

/-- Drive `y` and `err`. This is the whole effect of any transaction (`60_exceptions.md` R109,
R112). -/
def State.answer (s : State) (r : Answer) : State :=
  { s with out := some r }

/-- A value result, zero-extended (`30_encoding.md` R48). -/
def State.driveValue {w : Nat} (s : State) (v : BitVec w) : State :=
  s.answer (.ok (v.setWidth 64))

/-- A count result, an unsigned number (R48). -/
def State.driveCount (s : State) (n : Nat) : State :=
  s.answer (.ok (BitVec.ofNat 64 n))

/-- A truth value in `y[0]` (R48). -/
def State.driveTruth (s : State) (b : Bool) : State :=
  s.answer (.ok (if b then 1 else 0))

/-- Raising an error, for both kinds (`60_exceptions.md` R101, R102). It saves nothing, changes no
mode and transfers control nowhere (R109); there is no return from it, and the next transaction is
decided as if it had not happened (R110). Assumption log 8. -/
def State.raise (s : State) (e : ErrorKind) : State :=
  s.answer (.error e)

/-- The outcome a transaction has left on the output ports; nothing when the machine stopped. -/
def answerOf (r : Host.Outcome State Fault Refusal) : Option Answer :=
  match r with
  | .next t => t.out
  | .fault _ => none
  | .refused _ => none

end Sys2Proof.Machine
end

