-- ==== Sys2Proof/Machine/Operands.lean ====
section
/-! DEFINITION. Operand assembly (`30_encoding.md` R46, R47). There are no immediates and no
addressing modes (`20_memory.md` R36). -/

namespace Sys2Proof.Machine

/-- The value operand `x = a[w-1:0]`; the bits above are ignored (R46). -/
def State.operand (s : State) (w : Width) : BitVec w.bits :=
  s.a.setWidth w.bits

/-- The shift amount `int(s)`: the port read as 32-bit two's complement (R47). -/
def State.shiftAmount (s : State) : Int :=
  s.s.toInt

end Sys2Proof.Machine
end

