-- ==== Sys2Proof/Machine/Counting.lean ====
section
/-! DEFINITION. Bit counting: CLZ, CLO, CTZ, CTO, POPCNT (`41_bit_counting.md`). The functions are
those of the rules' loops, for a general width; the loops define a value and say nothing of cost
(R62). -/

namespace Sys2Proof.Machine

/-- How many of the bits `i-1, i-2, ...` of `x`, going down, equal `b` before the first that does
not: the loop of R63 and R64 with `i` bits still to look at. -/
def leadingRun {w : Nat} (b : Bool) (x : BitVec w) : Nat → Nat
  | 0 => 0
  | i + 1 => if x.getLsbD i = b then leadingRun b x i + 1 else 0

/-- How many of the bits `i, i+1, ...` of `x`, going up, equal `b` before the first that does not:
the loop of R65 and R66, `left` bits still to look at. -/
def trailingRun {w : Nat} (b : Bool) (x : BitVec w) (i : Nat) : Nat → Nat
  | 0 => 0
  | left + 1 => if x.getLsbD i = b then trailingRun b x (i + 1) left + 1 else 0

/-- How many of the bits `0 .. i-1` of `x` are 1: the loop of R67. -/
def onesBelow {w : Nat} (x : BitVec w) : Nat → Nat
  | 0 => 0
  | i + 1 => onesBelow x i + (x.getLsbD i).toNat

/-- `CLZ_w` (R63). -/
def countLeadingZeros {w : Nat} (x : BitVec w) : Nat := leadingRun false x w

/-- `CLO_w` (R64). -/
def countLeadingOnes {w : Nat} (x : BitVec w) : Nat := leadingRun true x w

/-- `CTZ_w` (R65). -/
def countTrailingZeros {w : Nat} (x : BitVec w) : Nat := trailingRun false x 0 w

/-- `CTO_w` (R66). -/
def countTrailingOnes {w : Nat} (x : BitVec w) : Nat := trailingRun true x 0 w

/-- `POPCNT_w` (R67). -/
def populationCount {w : Nat} (x : BitVec w) : Nat := onesBelow x w

/-- CLZ, clz_unit (R63). -/
def execClz (w : Width) (s : State) : Host.Outcome State Fault Refusal :=
  .next (s.driveCount (countLeadingZeros (s.operand w)))

/-- CLO (R64). -/
def execClo (w : Width) (s : State) : Host.Outcome State Fault Refusal :=
  .next (s.driveCount (countLeadingOnes (s.operand w)))

/-- CTZ, ctz_unit (R65). -/
def execCtz (w : Width) (s : State) : Host.Outcome State Fault Refusal :=
  .next (s.driveCount (countTrailingZeros (s.operand w)))

/-- CTO (R66). -/
def execCto (w : Width) (s : State) : Host.Outcome State Fault Refusal :=
  .next (s.driveCount (countTrailingOnes (s.operand w)))

/-- POPCNT, popcount_unit (R67). -/
def execPopcnt (w : Width) (s : State) : Host.Outcome State Fault Refusal :=
  .next (s.driveCount (populationCount (s.operand w)))

end Sys2Proof.Machine
end

