-- ==== Sys2Proof/Machine/Endianness.lean ====
section
/-! DEFINITION. The endianness model: BSWAP, ENDCONV, ENDEQ (`44_endianness.md`). -/

namespace Sys2Proof.Machine

/-- `res(t)` (R89): `native` is a name for the order the instance was built with. -/
def resolve (c : Config) : OrderTag → ByteOrder
  | .little => .little
  | .big => .big
  | .native => c.nativeOrder

/-- Equality of tags is equality of what they resolve to (R88). -/
def sameOrder (c : Config) (t u : OrderTag) : Bool :=
  resolve c t = resolve c u

/-- Byte `k` of a value, from the least significant end (`20_memory.md` R27). -/
def byteOf {w : Nat} (x : BitVec w) (k : Nat) : BitVec 8 := x.extractLsb' (8 * k) 8

/-- The loop of R91 after its first `k` turns, `n` the number of bytes: byte `j` of the result is
byte `n-1-j` of `x` for each `j < k`, the bytes above are 0. -/
def reversedBelow {w : Nat} (x : BitVec w) (n : Nat) : Nat → BitVec w
  | 0 => 0
  | k + 1 => reversedBelow x n k ||| ((byteOf x (n - 1 - k)).setWidth w <<< (8 * k))

/-- `rev_w(x)` (R90); `w` is a multiple of 8. -/
def reverseBytes {w : Nat} (x : BitVec w) : BitVec w := reversedBelow x (w / 8) (w / 8)

/-- `ENDCONV_w(x, ta, tb)` (R92). -/
def convertOrder {w : Nat} (c : Config) (x : BitVec w) (source target : OrderTag) : BitVec w :=
  if sameOrder c source target then x else reverseBytes x

/-- BSWAP, byte_reversal_unit (R91). That strict mode removes it is decided on its word
(`30_encoding.md` R50, R52). -/
def execBswap (w : Width) (s : State) : Host.Outcome State Fault Refusal :=
  .next (s.driveValue (reverseBytes (s.operand w)))

/-- ENDCONV, byte_reversal_unit (R92). -/
def execEndconv (w : Width) (source target : OrderTag) (s : State) :
    Host.Outcome State Fault Refusal :=
  .next (s.driveValue (convertOrder s.config (s.operand w) source target))

/-- ENDEQ (R93). -/
def execEndeq (left right : OrderTag) (s : State) : Host.Outcome State Fault Refusal :=
  .next (s.driveTruth (sameOrder s.config left right))

end Sys2Proof.Machine
end

