-- ==== Sys2Proof/Machine/PowerOfTwo.lean ====
section
/-! DEFINITION. Powers of two: HSB, BWIDTH, BCEIL, BFLOOR (`42_power_of_two.md`), built on bit
counting (`00_scope.md` R3). -/

namespace Sys2Proof.Machine

/-- `HSB_w` (R72). -/
def hasSingleBit {w : Nat} (x : BitVec w) : Bool := populationCount x = 1

/-- `BWIDTH_w` (R73). -/
def bitWidth {w : Nat} (x : BitVec w) : Nat :=
  if x = 0 then 0 else w - countLeadingZeros x

/-- `BCEIL_w` (R74), which is no value above `2^(w-1)`: neither 0 nor `2^w` nor any other
(R79). -/
def bitCeil? {w : Nat} (x : BitVec w) : Option (BitVec w) :=
  if 2 ^ (w - 1) < x.toNat then none
  else if x.toNat ≤ 1 then some (BitVec.ofNat w 1)
  else some (BitVec.ofNat w (2 ^ bitWidth (x - 1)))

/-- `BFLOOR_w` (R75). -/
def bitFloor {w : Nat} (x : BitVec w) : BitVec w :=
  if x = 0 then 0 else BitVec.ofNat w (2 ^ (bitWidth x - 1))

/-- HSB (R72). -/
def execHsb (w : Width) (s : State) : Host.Outcome State Fault Refusal :=
  .next (s.driveTruth (hasSingleBit (s.operand w)))

/-- BWIDTH, bitwidth_calculator (R73). -/
def execBwidth (w : Width) (s : State) : Host.Outcome State Fault Refusal :=
  .next (s.driveCount (bitWidth (s.operand w)))

/-- BCEIL, power_of_two_ceiling (R74): the one command that can raise. The violation is signalled in
every instance (`60_exceptions.md` R114). -/
def execBceil (w : Width) (s : State) : Host.Outcome State Fault Refusal :=
  match bitCeil? (s.operand w) with
  | some v => .next (s.driveValue v)
  | none => .next (s.raise .precond)

/-- BFLOOR, power_of_two_floor (R75). -/
def execBfloor (w : Width) (s : State) : Host.Outcome State Fault Refusal :=
  .next (s.driveValue (bitFloor (s.operand w)))

end Sys2Proof.Machine
end

