-- ==== Sys2Proof/Machine/Reinterpret.lean ====
section
/-! DEFINITION. The reinterpretation primitive, BITCAST (`40_reinterpret.md`): at the ports a type is
nothing but a width, and the pattern gets no floating-point meaning (R57, R59). -/

namespace Sys2Proof.Machine

/-- BITCAST (R58): the same `w` bits come out that went in. -/
def execBitcast (w : Width) (s : State) : Host.Outcome State Fault Refusal :=
  .next (s.driveValue (s.operand w))

end Sys2Proof.Machine
end

