-- ==== Sys2Proof/Machine/Rotation.lean ====
section
/-! DEFINITION. The rotator: ROTL and ROTR (`43_rotation.md`), the only commands that read the
port `s`. -/

namespace Sys2Proof.Machine

/-- `eff_w(s)` (R81): the one integer in `[0, w)` congruent to `s` modulo `w`. Division of integers
by a positive number rounds down here, so the remainder is that integer, as
`Sys2Proof.Laws.effectiveAmount_spec` proves. -/
def effectiveAmount (w : Nat) (s : Int) : Nat := (s % (w : Int)).toNat

/-- `ROTL_w(x, s)` for any integer `s` (R82). -/
def rotateLeft {w : Nat} (x : BitVec w) (s : Int) : BitVec w :=
  let r := effectiveAmount w s
  if r = 0 then x else (x <<< r) ||| (x >>> (w - r))

/-- `ROTR_w(x, s) = ROTL_w(x, -s)`; the integer is negated, not the 32-bit pattern (R83, R86). -/
def rotateRight {w : Nat} (x : BitVec w) (s : Int) : BitVec w :=
  rotateLeft x (-s)

/-- ROTL, rotator (R82). -/
def execRotl (w : Width) (s : State) : Host.Outcome State Fault Refusal :=
  .next (s.driveValue (rotateLeft (s.operand w) s.shiftAmount))

/-- ROTR, rotator (R83). -/
def execRotr (w : Width) (s : State) : Host.Outcome State Fault Refusal :=
  .next (s.driveValue (rotateRight (s.operand w) s.shiftAmount))

end Sys2Proof.Machine
end

