-- ==== Sys2Proof/Machine/Dispatch.lean ====
section
/-! DEFINITION. One arm per command of `30_encoding.md` R43. -/

namespace Sys2Proof.Machine

def exec (i : Instr) (s : State) : Host.Outcome State Fault Refusal :=
  match i with
  | .clz w => Sys2Proof.Machine.execClz w s
  | .ctz w => Sys2Proof.Machine.execCtz w s
  | .popcnt w => Sys2Proof.Machine.execPopcnt w s
  | .rotl w => Sys2Proof.Machine.execRotl w s
  | .rotr w => Sys2Proof.Machine.execRotr w s
  | .bceil w => Sys2Proof.Machine.execBceil w s
  | .bfloor w => Sys2Proof.Machine.execBfloor w s
  | .bwidth w => Sys2Proof.Machine.execBwidth w s
  | .bswap w => Sys2Proof.Machine.execBswap w s
  | .endconv w source target => Sys2Proof.Machine.execEndconv w source target s
  | .clo w => Sys2Proof.Machine.execClo w s
  | .cto w => Sys2Proof.Machine.execCto w s
  | .hsb w => Sys2Proof.Machine.execHsb w s
  | .bitcast w => Sys2Proof.Machine.execBitcast w s
  | .endeq left right => Sys2Proof.Machine.execEndeq left right s

end Sys2Proof.Machine
end

