-- ==== Sys2Proof/Machine/Flags.lean ====
section
/-! DEFINITION. There are no flags, condition codes or predicates (`10_state.md` R15). The port `err`
is not one: it is a function of the present inputs and is not kept. What stands here is how the
outcome appears on the two output ports. -/

namespace Sys2Proof.Machine

/-- The codes on port `err` (`60_exceptions.md` R103); the code 3 is never driven. -/
def Answer.errCode : Answer → BitVec 2
  | .ok _ => 0
  | .error .illegal => 1
  | .error .precond => 2

/-- The value on port `y` that a host may use: there is one exactly when `err` is 0
(`10_state.md` R20, `60_exceptions.md` R105). -/
def Answer.result? : Answer → Option BusWord
  | .ok y => some y
  | .error _ => none

/-- Port `err` as the host reads it. -/
def State.errPort (s : State) : Option (BitVec 2) := s.out.map Answer.errCode

/-- Port `y` as the host may use it. -/
def State.yPort (s : State) : Option BusWord := s.out.bind Answer.result?

end Sys2Proof.Machine
end

