-- ==== Sys2Proof/Machine/Step.lean ====
section
/-! DEFINITION. The transaction (`10_state.md` R16): the block answers the command on its ports. -/

namespace Sys2Proof.Machine

/-- One transaction. Legality of the word is decided first, and only for a legal word the operand's
domain (`60_exceptions.md` R108). The inputs stay as the host holds them
(`70_reset_and_hazards.md` R119). -/
def step (s : State) : Host.Outcome State Fault Refusal :=
  if s.driven then
    match decode s.config.strictMode s.fetch with
    | .ok i => exec i s
    | .error _ => .next (s.raise .illegal)
  else .fault .inputsNotDriven

/-- `s` with the instruction presented where the next step takes it: on the port `cmd`. `a` and `s`
keep what they hold. Assumption log 9. -/
def State.withFetchWord (s : State) (nbits w : Nat) : State :=
  s.presentWord (BitVec.ofNat 16 (w % 2 ^ nbits))

end Sys2Proof.Machine
end

