-- ==== Sys2Proof/Machine/Pseudo.lean ====
section
/-! DEFINITION. The pseudo-commands of `30_encoding.md` R54: the document's named conversion functions,
each ENDCONV with fixed tags. The expansion is textual; the block sees only the ENDCONV. -/

namespace Sys2Proof.Machine

/-- The eight forms of R54. A form ending in `From` carries the explicit source tag. There is no
`to_native_endian` without a tag (`44_endianness.md` R95). -/
inductive Pseudo
  | toBigEndian (w : Width)
  | toBigEndianFrom (w : Width) (source : OrderTag)
  | toLittleEndian (w : Width)
  | toLittleEndianFrom (w : Width) (source : OrderTag)
  | toNativeEndianFrom (w : Width) (source : OrderTag)
  | asBigEndian (w : Width)
  | asLittleEndian (w : Width)
  | asNativeEndian (w : Width)
  deriving DecidableEq, Repr

/-- What a pseudo-command expands to (R54). -/
def Pseudo.expand : Pseudo → Instr
  | .toBigEndian w => .endconv w .native .big
  | .toBigEndianFrom w source => .endconv w source .big
  | .toLittleEndian w => .endconv w .native .little
  | .toLittleEndianFrom w source => .endconv w source .little
  | .toNativeEndianFrom w source => .endconv w source .native
  | .asBigEndian w => .endconv w .native .big
  | .asLittleEndian w => .endconv w .native .little
  | .asNativeEndian w => .endconv w .native .native

end Sys2Proof.Machine
end

