-- ==== Sys2Proof/Machine/Script.lean ====
section
/-! DEFINITION. Scripts (`30_encoding.md` R53): what a host does with the block, line by line, with
its own forwarding of results. A script is not a stored program and the block never sees it.
Assumption log 12. -/

namespace Sys2Proof.Machine

/-- What a line asks for: a command, a pseudo-command, or a raw command word as in script P4 of
`95_test_vectors.md`. -/
inductive LineOp
  | command (i : Instr)
  | pseudo (p : Pseudo)
  | raw (c : CommandWord)
  deriving DecidableEq, Repr

/-- What a line puts on `a`: a literal, or the result `%n` of line `n`, lines numbered from 1. -/
inductive LineOperand
  | literal (v : Nat)
  | result (n : Nat)
  deriving DecidableEq, Repr

/-- One line: one transaction (R53). -/
structure Line where
  op : LineOp
  operand : LineOperand
  shift : Int
  deriving DecidableEq, Repr

/-- The encoding of a line (R53). -/
def LineOp.word : LineOp → CommandWord
  | .command i => encode i
  | .pseudo p => encode p.expand
  | .raw c => c

/-- How many bits of operand the line takes: `w` for a command of width `w`, none for ENDEQ, the
whole port for a raw word. -/
def LineOp.operandBits : LineOp → Nat
  | .command i => (i.width?.map Width.bits).getD 0
  | .pseudo p => (p.expand.width?.map Width.bits).getD 0
  | .raw _ => 64

/-- Only ROTL and ROTR take a shift amount; the script puts 0 on `s` for every other command. -/
def LineOp.takesShift : LineOp → Bool
  | .command (.rotl _) | .command (.rotr _) | .raw _ => true
  | .command (.clz _) | .command (.ctz _) | .command (.popcnt _) | .command (.bceil _) => false
  | .command (.bfloor _) | .command (.bwidth _) | .command (.bswap _) => false
  | .command (.endconv _ _ _) | .command (.clo _) | .command (.cto _) | .command (.hsb _) => false
  | .command (.bitcast _) | .command (.endeq _ _) | .pseudo _ => false

/-- The conditions of R53 on line number `earlier + 1`: a literal of at most `w` bits, `%n` an
earlier line, a shift amount of the port's range, and 0 where there is none. -/
def Line.wellFormed (l : Line) (earlier : Nat) : Bool :=
  (match l.operand with
    | .literal v => v < 2 ^ l.op.operandBits
    | .result n => 1 ≤ n && n ≤ earlier && 0 < l.op.operandBits) &&
  (if l.op.takesShift then -2147483648 ≤ l.shift && l.shift ≤ 2147483647 else l.shift = 0)

/-- The operand a line puts on `a`: a literal zero-extended, or the low `w` bits of `y` of an earlier
line whose `err` was 0. A line that names a result that does not exist has no operand (R53). -/
def Line.operandValue? (l : Line) (answers : List Answer) : Option BusWord :=
  match l.operand with
  | .literal v => some (BitVec.ofNat 64 v)
  | .result n =>
    match answers[n - 1]? with
    | some (.ok y) => some (BitVec.ofNat 64 (y.toNat % 2 ^ l.op.operandBits))
    | some (.error _) => none
    | none => none

/-- The command a line presents, given the outcomes of the lines before it; none when the script is
not well formed at this line. -/
def Line.command? (l : Line) (answers : List Answer) : Option Command :=
  if l.wellFormed answers.length then
    (l.operandValue? answers).map fun a =>
      { cmd := l.op.word, a, s := BitVec.ofInt 32 l.shift }
  else none

/-- The host runs the lines in order on one instance: it presents the line's command, takes the
block's answer, and goes on. The result is the block at the end and the outcomes collected,
`answers` first (`70_reset_and_hazards.md` R121, R123); none when the script is not well
formed. An error does not stop the run (`60_exceptions.md` R110). -/
def runScript (s : State) (answers : List Answer) : List Line → Option (State × List Answer)
  | [] => some (s, answers)
  | l :: rest =>
    match l.command? answers with
    | none => none
    | some c =>
      match step (s.present c) with
      | .next t =>
        match t.out with
        | some r => runScript t (answers ++ [r]) rest
        | none => none
      | .fault _ => none
      | .refused _ => none

/-- The block answers a list of commands, one after another on one instance; the outcomes in
order. -/
def runCommands (s : State) : List Command → List (Option Answer)
  | [] => []
  | c :: rest =>
    match step (s.present c) with
    | .next t => t.out :: runCommands t rest
    | .fault _ => []
    | .refused _ => []

end Sys2Proof.Machine
end

