-- ==== Sys2Proof/Machine/ScriptText.lean ====
section
/-! DEFINITION. The text of a script line, read into a `Line` (`30_encoding.md` R53, R54). Numbers out
of range and `%n` of a line that is not there are not the reader's business: `Line.wellFormed` and
`Line.command?` refuse them. What R53 leaves open of the spelling is assumption log 12. -/

namespace Sys2Proof.Machine

/-- A blank within a line. -/
def isBlank (c : Char) : Bool := c = ' ' || c = '\t'

/-- A text without the blanks at its two ends. -/
def trimBlanks (text : List Char) : List Char :=
  ((text.dropWhile isBlank).reverse.dropWhile isBlank).reverse

/-- A text cut at every `mark`. -/
def cutAt (mark : Char) : List Char → List (List Char)
  | [] => [[]]
  | c :: rest =>
    if c = mark then [] :: cutAt mark rest
    else match cutAt mark rest with
      | [] => [[c]]
      | piece :: pieces => (c :: piece) :: pieces

/-- A digit of a number in the given base; hexadecimal digits in either case. -/
def digitValue (base : Nat) (c : Char) : Option Nat :=
  let v :=
    if '0' ≤ c ∧ c ≤ '9' then c.toNat - 48
    else if 'A' ≤ c ∧ c ≤ 'F' then c.toNat - 55
    else if 'a' ≤ c ∧ c ≤ 'f' then c.toNat - 87
    else base
  if v < base then some v else none

/-- A number of at least one digit. -/
def readNumber (base : Nat) (text : List Char) : Option Nat :=
  if text = [] then none
  else text.foldlM (fun n c => (digitValue base c).map fun d => base * n + d) 0

/-- A literal: decimal, `0x` hexadecimal or `0b` binary (R53). -/
def readLiteral : List Char → Option Nat
  | '0' :: 'x' :: digits => readNumber 16 digits
  | '0' :: 'b' :: digits => readNumber 2 digits
  | digits => readNumber 10 digits

/-- What stands in the place of the operand: a literal or `%n` (R53). -/
def readOperand : List Char → Option LineOperand
  | '%' :: digits => (readNumber 10 digits).map .result
  | text => (readLiteral text).map .literal

/-- The shift amount of `rotl` and `rotr`, a signed decimal integer (R53). A sign is a `-` right before
the digits. DESIGN CHOICE: a leading `+` is refused, of which R53 does not speak. Assumption log 12,
safe. -/
def readShift : List Char → Option Int
  | '-' :: digits => (readNumber 10 digits).map fun n => -(n : Int)
  | digits => (readNumber 10 digits).map Int.ofNat

/-- An order tag by its name (R53). -/
def readTag (text : List Char) : Option OrderTag :=
  if text = "little".toList then some .little
  else if text = "big".toList then some .big
  else if text = "native".toList then some .native
  else none

/-- The suffix `.w` of a mnemonic (R53). -/
def readWidth (text : List Char) : Option Width :=
  if text = "8".toList then some .w8
  else if text = "16".toList then some .w16
  else if text = "32".toList then some .w32
  else if text = "64".toList then some .w64
  else none

/-- The mnemonics that take an operand and nothing else: eleven commands of R43, five
pseudo-commands of R54. -/
def operandOnly (w : Width) : List (String × LineOp) :=
  [ ("clz", .command (.clz w)), ("ctz", .command (.ctz w)), ("popcnt", .command (.popcnt w)),
    ("bceil", .command (.bceil w)), ("bfloor", .command (.bfloor w)),
    ("bwidth", .command (.bwidth w)), ("bswap", .command (.bswap w)), ("clo", .command (.clo w)),
    ("cto", .command (.cto w)), ("hsb", .command (.hsb w)), ("bitcast", .command (.bitcast w)) ] ++
  [ ("to_big_endian", .pseudo (.toBigEndian w)),
    ("to_little_endian", .pseudo (.toLittleEndian w)),
    ("as_big_endian", .pseudo (.asBigEndian w)),
    ("as_little_endian", .pseudo (.asLittleEndian w)),
    ("as_native_endian", .pseudo (.asNativeEndian w)) ]

/-- The mnemonics that take a shift amount. -/
def withShift (w : Width) : List (String × LineOp) :=
  [ ("rotl", .command (.rotl w)), ("rotr", .command (.rotr w)) ]

/-- The pseudo-commands that carry a source tag; `to_native_endian` is there only with one (R54). -/
def withTag (w : Width) (t : OrderTag) : List (String × LineOp) :=
  [ ("to_big_endian", .pseudo (.toBigEndianFrom w t)),
    ("to_little_endian", .pseudo (.toLittleEndianFrom w t)),
    ("to_native_endian", .pseudo (.toNativeEndianFrom w t)) ]

/-- What a name stands for in a list of mnemonics. -/
def named (name : List Char) (mnemonics : List (String × LineOp)) : Option LineOp :=
  (mnemonics.find? fun entry => entry.1.toList = name).map Prod.snd

/-- A line from its mnemonic, its width and what follows, cut at the commas. -/
def lineOf (name : List Char) : Option Width → List (List Char) → Option Line
  | none, [left, right] =>
    if name = "endeq".toList then
      (readTag left).bind fun t => (readTag right).map fun u =>
        { op := .command (.endeq t u), operand := .literal 0, shift := 0 }
    else none
  | some w, [x] =>
    (readOperand x).bind fun operand => (named name (operandOnly w)).map fun op =>
      { op, operand, shift := 0 }
  | some w, [x, argument] =>
    (readOperand x).bind fun operand =>
      match named name (withShift w) with
      | some op => (readShift argument).map fun shift => { op, operand, shift }
      | none =>
        (readTag argument).bind fun t => (named name (withTag w t)).map fun op =>
          { op, operand, shift := 0 }
  | some w, [x, source, target] =>
    if name = "endconv".toList then
      (readOperand x).bind fun operand => (readTag source).bind fun t =>
        (readTag target).map fun u => { op := .command (.endconv w t u), operand, shift := 0 }
    else none
  | _, _ => none

/-- The line a text stands for; `;` begins a comment (R53). -/
def readLine (text : List Char) : Option Line :=
  let code := trimBlanks (text.takeWhile fun c => c != ';')
  let arguments := (cutAt ',' (code.dropWhile fun c => !isBlank c)).map trimBlanks
  match cutAt '.' (code.takeWhile fun c => !isBlank c) with
  | [name] => lineOf name none arguments
  | [name, width] => (readWidth width).bind fun w => lineOf name (some w) arguments
  | _ => none

/-- A script, one line of text for each transaction. -/
def readScript (texts : List String) : Option (List Line) :=
  texts.mapM fun text => readLine text.toList

/-- How the outcome of a line is written when it raised (R53); a result is written as its value. -/
def Answer.errorName? : Answer → Option String
  | .ok _ => none
  | .error .illegal => some "ILLEGAL"
  | .error .precond => some "PRECOND"

end Sys2Proof.Machine
end

