-- ==== Sys2Proof/Safety.lean ====
section
/-! DEFINITION. What a claim may call a good run, and what the outputs may show. -/

namespace Sys2Proof.Machine

/-- Both error outcomes are faults of the host's use of the block, though the block itself carries on
(`60_exceptions.md` R115, R110). -/
def Answer.isFault : Answer → Bool
  | .ok _ => false
  | .error _ => true

/-- "No line raised", the premise R115 asks of a claim about a script. -/
def noLineRaised (answers : List Answer) : Bool :=
  answers.all fun r => !r.isFault

/-- A script whose end is a good end: it is well formed and no line raised
(`70_reset_and_hazards.md` R123). -/
def SafeScript (s : State) (lines : List Line) : Prop :=
  ∃ t answers, runScript s [] lines = some (t, answers) ∧ noLineRaised answers = true

/-- The least number no result of the command reaches, by its kind (`10_state.md` R20,
`30_encoding.md` R48): `2^w` for a value, `w + 1` for a count, 2 for a truth value. -/
def resultBound : Instr → Nat
  | .clz w => w.bits + 1
  | .ctz w => w.bits + 1
  | .popcnt w => w.bits + 1
  | .rotl w => 2 ^ w.bits
  | .rotr w => 2 ^ w.bits
  | .bceil w => 2 ^ w.bits
  | .bfloor w => 2 ^ w.bits
  | .bwidth w => w.bits + 1
  | .bswap w => 2 ^ w.bits
  | .endconv w _ _ => 2 ^ w.bits
  | .clo w => w.bits + 1
  | .cto w => w.bits + 1
  | .hsb _ => 2
  | .bitcast w => 2 ^ w.bits
  | .endeq _ _ => 2

/-- What the outputs show belongs to the inputs that stand beside them: a result only for a legal
word and within its kind's range, ILLEGAL only for an illegal word, PRECOND only for BCEIL above
`2^(w-1)` (`60_exceptions.md` R101, R102, R103). -/
def AnswerFitsInputs (s : State) : Answer → Prop
  | .ok y => ∃ i, decode s.config.strictMode s.cmd = .ok i ∧ y.toNat < resultBound i
  | .error .illegal => ∃ reason, decode s.config.strictMode s.cmd = .error reason
  | .error .precond => ∃ w, decode s.config.strictMode s.cmd = .ok (.bceil w) ∧
      2 ^ (w.bits - 1) < s.a.toNat % 2 ^ w.bits

/-- The invariant of the ports: outputs are shown only for inputs that are driven, and they fit
them. -/
def OutputsFitInputs (s : State) : Prop :=
  ∀ r, s.out = some r → s.driven = true ∧ AnswerFitsInputs s r

/-- The block is combinational (`10_state.md` R16, R24): outputs that are shown are those the inputs
give, so evaluating once more changes nothing. -/
def Settled (s : State) : Prop :=
  s.out ≠ none → step s = .next s

end Sys2Proof.Machine
end

