-- ==== Sys2Proof/Certificates/Slice0/Obligations.lean ====
section
/-! DEFINITION. The statements about the machine, each from a numbered rule of spec/. Nothing is proved
here. -/

namespace Sys2Proof.Claims

open Sys2Proof.Machine

/-- `s` with `y` on port `y` and 0 on port `err`, everything else as it was. -/
def shows (s : State) (y : BusWord) : State := { s with out := some (.ok y) }

/-- `s` with an error on port `err`, everything else as it was. -/
def showsError (s : State) (e : ErrorKind) : State := { s with out := some (.error e) }

/-- The command runs to a next state that shows `y` and differs in nothing else. -/
def Answers (i : Instr) (s : State) (y : BusWord) : Prop := exec i s = .next (shows s y)

/-- The same, `y` given as a number. -/
def AnswersNat (i : Instr) (s : State) (n : Nat) : Prop := Answers i s (BitVec.ofNat 64 n)

/-- The operand `x = a[w-1:0]` as a number (`30_encoding.md` R46). -/
def low (s : State) (w : Width) : Nat := s.a.toNat % 2 ^ w.bits

/-- `s` with another value on port `a`. -/
def withA (s : State) (a : BusWord) : State := { s with a := a }

/-- `s` with another value on port `s`. -/
def withS (s : State) (n : ShiftWord) : State := { s with s := n }

/-- The command at width `w = 8 · 2^wsel` is the word `op + 16 · wsel` (`30_encoding.md` R39, R43). -/
def EncodedAs (i : Width → Instr) (op : Nat) (w : Width) : Prop :=
  ∀ wsel, w.bits = 8 * 2 ^ wsel → (encode (i w)).toNat = op + 16 * wsel

/-- The code of an order tag (`30_encoding.md` R42). -/
def tagCode : OrderTag → Nat
  | .little => 0
  | .big => 1
  | .native => 2

/-- The order a tag means in the instance of `s` (`44_endianness.md` R89). -/
def tagOrder (s : State) : OrderTag → ByteOrder
  | .little => .little
  | .big => .big
  | .native => s.config.nativeOrder

/-- The six conditions of `30_encoding.md` R49 on a command word, its fields read as numbers. -/
def IllegalByRule (strict : Bool) (c : CommandWord) : Prop :=
  let op := c.toNat % 16
  let wsel := c.toNat / 16 % 4
  let ta := c.toNat / 64 % 4
  let tb := c.toNat / 256 % 4
  c.toNat / 1024 ≠ 0 ∨ op = 15 ∨ (op ≠ 9 ∧ op ≠ 14 ∧ (ta ≠ 0 ∨ tb ≠ 0)) ∨
  ((op = 9 ∨ op = 14) ∧ (ta = 3 ∨ tb = 3)) ∨ (op = 14 ∧ wsel ≠ 0) ∨
  (strict = true ∧ (op = 8 ∨ op = 9))

/-- The command returns the operand reversed byte by byte, as BSWAP does, when `cond` holds, and the
operand itself when it does not. -/
def ReversesExactlyWhen (i : Instr) (w : Width) (s : State) (cond : Prop) : Prop :=
  (cond → ∃ y, Answers i s y ∧ Answers (.bswap w) s y) ∧ (¬cond → AnswersNat i s (low s w))

end Sys2Proof.Claims

open Sys2Proof Sys2Proof.Machine Sys2Proof.Claims

/-! ## Encoding -/

/-- Decoding the encoding of a command that exists in the instance gives the command back. -/
def Obligations.EncodeThenDecode : Prop :=
  ∀ (strict : Bool) (i : Instr), i.wellFormed strict = true → decode strict (encode i) = .ok i

/-- A word that decodes is the encoding of what it decodes to, which exists in the instance. -/
def Obligations.DecodeThenEncode : Prop :=
  ∀ (strict : Bool) (c : CommandWord) (i : Instr),
    decode strict c = .ok i → encode i = c ∧ i.wellFormed strict = true

/-- R49: the decoder rejects a word exactly by the six conditions; 97 words are legal without strict
mode and 57 with it. -/
def Obligations.IllegalWordsAreTheSixConditions : Prop :=
  (∀ (strict : Bool) (c : CommandWord),
    (∃ reason, decode strict c = .error reason) ↔ IllegalByRule strict c) ∧
  ((List.range 65536).countP fun n => (decode false (BitVec.ofNat 16 n)).isOk) = 97 ∧
  ((List.range 65536).countP fun n => (decode true (BitVec.ofNat 16 n)).isOk) = 57

/-- R56: a legal word selects one row of the opcode table, that of its command, and an illegal word
selects none. -/
def Obligations.TableRowsSelectDecodedCommands : Prop :=
  opcodeTable.length = 15 ∧
  ∀ (strict : Bool) (c : CommandWord),
    (∀ i, decode strict c = .ok i →
      ∃ row ∈ opcodeTable, row.mnemonic = i.mnemonic ∧ row.selects strict c = true ∧
        ∀ other ∈ opcodeTable, other.selects strict c = true → other = row) ∧
    (∀ reason, decode strict c = .error reason →
      ∀ row ∈ opcodeTable, row.selects strict c = false)

/-- R39 to R42: what a decoded command's operation, width and tags are in its word's fields. -/
def Obligations.FieldsOfDecodedWords : Prop :=
  ∀ (strict : Bool) (c : CommandWord) (i : Instr), decode strict c = .ok i →
    i.operation = c.toNat % 16 ∧
    (∀ w, i.width? = some w → w.bits = 8 * 2 ^ (c.toNat / 16 % 4)) ∧
    (i.width? = none → c.toNat / 16 % 4 = 0) ∧
    (∀ t u, i.tags? = some (t, u) →
      c.toNat / 64 % 4 = tagCode t ∧ c.toNat / 256 % 4 = tagCode u) ∧
    (i.tags? = none → c.toNat / 64 % 4 = 0 ∧ c.toNat / 256 % 4 = 0) ∧
    c.toNat / 1024 = 0

/-- Words written out from the spec's encoding, one of each family, decode to what they stand for. -/
def Obligations.SpecWordsDecode : Prop :=
  decode false 0b0000000000110000#16 = .ok (.clz .w64) ∧
  decode false 0b0000000000011010#16 = .ok (.clo .w16) ∧
  decode false 0b0000000000000101#16 = .ok (.bceil .w8) ∧
  decode false 0b0000000000010100#16 = .ok (.rotr .w16) ∧
  decode false 0b0000000110101001#16 = .ok (.endconv .w32 .native .big) ∧
  decode true 0b0000000010001110#16 = .ok (.endeq .native .little) ∧
  decode false 0b0000000000111101#16 = .ok (.bitcast .w64)

/-- The example lines of R53, read from their text, are the commands it gives for them. -/
def Obligations.ScriptExamplesEncode : Prop :=
  [ "clz.8 28", "rotl.8 0x1D, 4", "rotr.16 0x8001, -1", "endconv.32 0x12345678, native, big",
    "endeq native, little" ].map (fun text => (readLine text.toList).bind fun l => l.command? []) =
  [ some { cmd := 0x0000, a := 0x1C, s := 0 },
    some { cmd := 0x0003, a := 0x1D, s := 0x00000004 },
    some { cmd := 0x0014, a := 0x8001, s := 0xFFFFFFFF },
    some { cmd := 0x01A9, a := 0x12345678, s := 0 },
    some { cmd := 0x008E, a := 0, s := 0 } ]

/-! ## The transaction -/

/-- A step answers the command whose word is on port `cmd`: it is that command's `exec`, with nothing
around it. -/
def Obligations.StepRunsDecodedCommand : Prop :=
  ∀ (s : State) (i : Instr), s.driven = true → decode s.config.strictMode s.cmd = .ok i →
    step s = exec i s

/-- R101: ILLEGAL exactly for the illegal words, whatever `a` and `s` hold, and nothing else changes. -/
def Obligations.IllegalWordAnswersIllegal : Prop :=
  ∀ s : State, s.driven = true →
    (IllegalByRule s.config.strictMode s.cmd → step s = .next (showsError s .illegal)) ∧
    (∀ t, step s = .next t → t.out = some (.error .illegal) →
      IllegalByRule s.config.strictMode s.cmd)

/-- R102: PRECOND exactly for a legal BCEIL with an operand above `2^(w-1)`, and nothing else
changes. -/
def Obligations.PrecondExactlyAboveRange : Prop :=
  ∀ s : State, s.driven = true →
    (∀ w, decode s.config.strictMode s.cmd = .ok (.bceil w) → 2 ^ (w.bits - 1) < low s w →
      step s = .next (showsError s .precond)) ∧
    (∀ t, step s = .next t → t.out = some (.error .precond) →
      ∃ w, decode s.config.strictMode s.cmd = .ok (.bceil w) ∧ 2 ^ (w.bits - 1) < low s w)

/-- R108: a word with the operation number of BCEIL and a non-zero reserved field is ILLEGAL whatever
`a` holds, never PRECOND. -/
def Obligations.LegalityDecidedFirst : Prop :=
  ∀ s : State, s.driven = true → s.cmd.toNat % 16 = 5 → s.cmd.toNat / 64 ≠ 0 →
    ∀ a, step (withA s a) = .next (showsError (withA s a) .illegal)

/-- R106: every legal command but BCEIL above its range completes with a result. -/
def Obligations.NothingElseFails : Prop :=
  ∀ (s : State) (i : Instr), s.driven = true → decode s.config.strictMode s.cmd = .ok i →
    (∀ w, i = .bceil w → low s w ≤ 2 ^ (w.bits - 1)) →
    ∃ y, step s = .next (shows s y)

/-- R123: the block answers every command, and a script of `n` well-formed lines with literal operands
ends after `n` transactions. -/
def Obligations.EveryTransactionCompletes : Prop :=
  (∀ (s : State) (c : Command), ∃ r, step (s.present c) = .next ((s.present c).answer r)) ∧
  (∀ (s : State) (lines : List Line),
    (∀ (k : Nat) (l : Line), lines[k]? = some l → l.wellFormed k = true ∧ ∃ v, l.operand = .literal v) →
    ∃ t answers, runScript s [] lines = some (t, answers) ∧ answers.length = lines.length) ∧
  (∀ (s t : State) (lines : List Line) (answers : List Answer),
    runScript s [] lines = some (t, answers) → answers.length = lines.length)

/-- The model's choice (assumption log 5): asked for a transaction before the host has driven the
inputs, the machine stops by name, and only then. -/
def Obligations.UndrivenInputsFault : Prop :=
  ∀ s : State, (s.driven = false → step s = .fault .inputsNotDriven) ∧
    (∀ f, step s = .fault f → s.driven = false)

/-- The frame of all fifteen commands: the output ports alone change, and they are written. -/
def Obligations.CommandFrame : Prop :=
  ∀ (i : Instr) (s t : State), exec i s = .next t →
    t.config = s.config ∧ t.cmd = s.cmd ∧ t.a = s.a ∧ t.s = s.s ∧ t.driven = s.driven ∧
    t.out ≠ none

/-- R31: a transaction is idempotent and free of side effects. -/
def Obligations.StepIdempotentAndPure : Prop :=
  ∀ s t : State, step s = .next t →
    step t = .next t ∧
    t.config = s.config ∧ t.cmd = s.cmd ∧ t.a = s.a ∧ t.s = s.s ∧ t.driven = s.driven

/-- R16: the outcome is a function of the parameters and `(cmd, a, s)`; whatever the outputs showed
before plays no part. -/
def Obligations.OutcomeIsFunctionOfInputs : Prop :=
  ∀ s u : State, s.driven = true → u.driven = true → s.config = u.config → s.cmd = u.cmd →
    s.a = u.a → s.s = u.s →
    ∃ r, step s = .next (s.answer r) ∧ step u = .next (u.answer r)

/-- R46: the operand is the low `w` bits of `a`; two commands that differ only above have the same
outcome. -/
def Obligations.UpperOperandBitsIgnored : Prop :=
  ∀ (i : Instr) (w : Width) (s : State) (a : BusWord), i.width? = some w →
    (∀ j, j < w.bits → a.getLsbD j = s.a.getLsbD j) →
    (s.operand w).toNat = low s w ∧
    ∃ r, exec i s = .next (s.answer r) ∧ exec i (withA s a) = .next ((withA s a).answer r)

/-- R45, its ports: `s` is ignored by every command but ROTL and ROTR, and `a` by ENDEQ. -/
def Obligations.UnusedPortsIgnored : Prop :=
  (∀ (i : Instr) (s : State) (n : ShiftWord), (∀ w, i ≠ .rotl w) → (∀ w, i ≠ .rotr w) →
    ∃ r, exec i s = .next (s.answer r) ∧ exec i (withS s n) = .next ((withS s n).answer r)) ∧
  (∀ (t u : OrderTag) (s : State) (a : BusWord),
    ∃ r, exec (.endeq t u) s = .next (s.answer r) ∧
      exec (.endeq t u) (withA s a) = .next ((withA s a).answer r))

/-- R48: a value result is below `2^w`, a count at most `w`, a truth value at most 1, so the bits of
`y` above are 0. -/
def Obligations.ResultsStayInRange : Prop :=
  ∀ (i : Instr) (s t : State) (y : BusWord), exec i s = .next t → t.out = some (.ok y) →
    y.toNat < resultBound i

/-- Every step and every act of the host keeps: what the outputs show fits the inputs beside them, and
evaluating them once more changes nothing. -/
def Obligations.StepsKeepOutputsFitInputs : Prop :=
  (∀ s t : State, OutputsFitInputs s ∧ Settled s → step s = .next t →
    OutputsFitInputs t ∧ Settled t) ∧
  (∀ (s : State) (c : Command), OutputsFitInputs s ∧ Settled s →
    OutputsFitInputs (s.present c) ∧ Settled (s.present c)) ∧
  (∀ (s : State) (nbits w : Nat), OutputsFitInputs s ∧ Settled s →
    OutputsFitInputs (s.withFetchWord nbits w) ∧ Settled (s.withFetchWord nbits w))

/-- The machine starts with that invariant, whatever its parameters. -/
def Obligations.PowerUpOutputsFitInputs : Prop :=
  (∀ g : Config, OutputsFitInputs (State.powerUp g) ∧ Settled (State.powerUp g)) ∧
  OutputsFitInputs State.reset ∧ Settled State.reset

/-- R103: the codes on port `err`; `y` is usable exactly with code 0, and 3 is never driven. -/
def Obligations.ErrPortCodes : Prop :=
  ∀ s t : State, step s = .next t →
    (t.errPort = some 0 ↔ ∃ y, t.yPort = some y) ∧
    (t.errPort = some 1 ↔ IllegalByRule s.config.strictMode s.cmd) ∧
    (t.errPort = some 2 ↔ ∃ w, decode s.config.strictMode s.cmd = .ok (.bceil w) ∧
      2 ^ (w.bits - 1) < low s w) ∧
    (t.errPort = some 0 ∨ t.errPort = some 1 ∨ t.errPort = some 2)

/-- R50 and R98: strict mode makes BSWAP, ENDCONV and the pseudo-commands illegal at every width and
with every tag, and leaves every other command as it is. -/
def Obligations.StrictModeDisablesConversions : Prop :=
  (∀ (c : CommandWord) (i : Instr), decode false c = .ok i →
    (∀ w, i ≠ .bswap w) → (∀ w t u, i ≠ .endconv w t u) → decode true c = .ok i) ∧
  (∀ (s : State) (i : Instr), s.driven = true → s.config.strictMode = true →
    ((∃ w, i = .bswap w) ∨ (∃ w t u, i = .endconv w t u) ∨ ∃ p : Pseudo, i = p.expand) →
    s.cmd = encode i → step s = .next (showsError s .illegal))

/-! ## Bit counting -/

/-- R63: CLZ counts the zero bits from bit `w-1` down to the first 1, with its closed forms. -/
def Obligations.ClzCountsLeadingZeros : Prop :=
  ∀ (w : Width) (s : State), EncodedAs .clz 0x0000 w ∧
    ∃ n, n ≤ w.bits ∧ AnswersNat (.clz w) s n ∧
      (∀ j, w.bits - n ≤ j → j < w.bits → s.a.getLsbD j = false) ∧
      (n < w.bits → s.a.getLsbD (w.bits - 1 - n) = true) ∧
      low s w < 2 ^ (w.bits - n) ∧ (n = w.bits ∨ 2 ^ (w.bits - n - 1) ≤ low s w) ∧
      AnswersNat (.bwidth w) s (w.bits - n)

/-- R64: CLO counts the one bits from bit `w-1` down to the first 0; it is CLZ of the complement. -/
def Obligations.CloCountsLeadingOnes : Prop :=
  ∀ (w : Width) (s : State), EncodedAs .clo 0x000A w ∧
    ∃ n, n ≤ w.bits ∧ AnswersNat (.clo w) s n ∧
      (∀ j, w.bits - n ≤ j → j < w.bits → s.a.getLsbD j = true) ∧
      (n < w.bits → s.a.getLsbD (w.bits - 1 - n) = false) ∧
      AnswersNat (.clz w) (withA s (~~~s.a)) n

/-- R65: CTZ counts the zero bits from bit 0 up to the first 1, with its closed forms. -/
def Obligations.CtzCountsTrailingZeros : Prop :=
  ∀ (w : Width) (s : State), EncodedAs .ctz 0x0001 w ∧
    ∃ n, n ≤ w.bits ∧ AnswersNat (.ctz w) s n ∧
      (∀ j, j < n → s.a.getLsbD j = false) ∧
      (n < w.bits → s.a.getLsbD n = true) ∧
      (low s w ≠ 0 → 2 ^ n ∣ low s w ∧ ¬ 2 ^ (n + 1) ∣ low s w)

/-- R66: CTO counts the one bits from bit 0 up to the first 0; it is CTZ of the complement. -/
def Obligations.CtoCountsTrailingOnes : Prop :=
  ∀ (w : Width) (s : State), EncodedAs .cto 0x000B w ∧
    ∃ n, n ≤ w.bits ∧ AnswersNat (.cto w) s n ∧
      (∀ j, j < n → s.a.getLsbD j = true) ∧
      (n < w.bits → s.a.getLsbD n = false) ∧
      AnswersNat (.ctz w) (withA s (~~~s.a)) n

/-- R67: POPCNT counts the one bits; the result does not depend on `w` beyond the operand. -/
def Obligations.PopcntCountsOnes : Prop :=
  ∀ (w : Width) (s : State), EncodedAs .popcnt 0x0002 w ∧
    ∃ n, n ≤ w.bits ∧ AnswersNat (.popcnt w) s n ∧
      n = ((List.range w.bits).map fun j => (s.a.getLsbD j).toNat).sum ∧
      AnswersNat (.popcnt .w64) (withA s (BitVec.ofNat 64 (low s w))) n

/-- R68: complement symmetry of the directional counts, at every width. -/
def Obligations.ComplementSymmetry : Prop :=
  ∀ (w : Nat) (x : BitVec w),
    countLeadingOnes x = countLeadingZeros (~~~x) ∧
    countLeadingZeros x = countLeadingOnes (~~~x) ∧
    countTrailingOnes x = countTrailingZeros (~~~x) ∧
    countTrailingZeros x = countTrailingOnes (~~~x)

/-- R69: the six laws of the counts, at every width. -/
def Obligations.CountingLaws : Prop :=
  ∀ (w : Nat) (x : BitVec w), 0 < w →
    populationCount x + populationCount (~~~x) = w ∧
    (x ≠ 0 → countLeadingZeros x + countTrailingZeros x ≤ w - 1 ∧
      (countLeadingZeros x + countTrailingZeros x = w - 1 ↔ ∃ k, k < w ∧ x.toNat = 2 ^ k)) ∧
    (x = 0 → countLeadingZeros x = w ∧ countTrailingZeros x = w) ∧
    (x ≠ 0 → populationCount x ≤ w - countLeadingZeros x - countTrailingZeros x) ∧
    countLeadingOnes x ≤ populationCount x ∧ countTrailingOnes x ≤ populationCount x ∧
    (countLeadingZeros x = 0 ∨ countLeadingOnes x = 0) ∧
    (countTrailingZeros x = 0 ∨ countTrailingOnes x = 0) ∧
    (∀ v, w < v →
      countLeadingZeros (x.setWidth v) = countLeadingZeros x + (v - w) ∧
      (x ≠ 0 → countTrailingZeros (x.setWidth v) = countTrailingZeros x) ∧
      (x = 0 → countTrailingZeros (x.setWidth v) = v) ∧
      countTrailingOnes (x.setWidth v) = countTrailingOnes x ∧
      countLeadingOnes (x.setWidth v) = 0) ∧
    ∀ s : Int, populationCount (rotateLeft x s) = populationCount x

/-! ## Powers of two -/

/-- R72: HSB is true exactly for the powers of two, in each of its equivalent forms. -/
def Obligations.HsbDetectsPowersOfTwo : Prop :=
  ∀ (w : Width) (s : State), EncodedAs .hsb 0x000C w ∧
    ∃ b, b ≤ 1 ∧ AnswersNat (.hsb w) s b ∧
      (b = 1 ↔ ∃ k, k < w.bits ∧ low s w = 2 ^ k) ∧
      (b = 1 ↔ low s w ≠ 0 ∧ low s w &&& (low s w - 1) = 0) ∧
      (b = 1 ↔ AnswersNat (.popcnt w) s 1) ∧
      (b = 1 ↔ low s w ≠ 0 ∧ ∃ p q, p + q = w.bits - 1 ∧
        AnswersNat (.clz w) s p ∧ AnswersNat (.ctz w) s q)

/-- R73: BWIDTH is the least number of bits that hold the operand, in each of its equivalent
forms. -/
def Obligations.BwidthMeasuresOperand : Prop :=
  ∀ (w : Width) (s : State), EncodedAs .bwidth 0x0007 w ∧
    ∃ n, n ≤ w.bits ∧ AnswersNat (.bwidth w) s n ∧
      low s w < 2 ^ n ∧ (∀ m, low s w < 2 ^ m → n ≤ m) ∧
      (n = 0 ↔ low s w = 0) ∧
      (low s w ≠ 0 → 2 ^ (n - 1) ≤ low s w ∧ n = 1 + Nat.log2 (low s w)) ∧
      (∃ z, z ≤ w.bits ∧ AnswersNat (.clz w) s z ∧ n = w.bits - z) ∧
      AnswersNat (.bwidth .w64) (withA s (BitVec.ofNat 64 (low s w))) n

/-- R74: up to `2^(w-1)` BCEIL completes with the least power of two not below the operand, 1 for 0;
above, it answers PRECOND and no value. -/
def Obligations.BceilRoundsUpWithinRange : Prop :=
  ∀ (w : Width) (s : State), EncodedAs .bceil 0x0005 w ∧
    (low s w ≤ 2 ^ (w.bits - 1) →
      ∃ k, k < w.bits ∧ AnswersNat (.bceil w) s (2 ^ k) ∧ low s w ≤ 2 ^ k ∧
        ∀ j, low s w ≤ 2 ^ j → k ≤ j) ∧
    (2 ^ (w.bits - 1) < low s w → exec (.bceil w) s = .next (showsError s .precond))

/-- R75: BFLOOR is the greatest power of two not above the operand, and 0 for 0. -/
def Obligations.BfloorRoundsDown : Prop :=
  ∀ (w : Width) (s : State), EncodedAs .bfloor 0x0006 w ∧
    (low s w = 0 → AnswersNat (.bfloor w) s 0) ∧
    (low s w ≠ 0 →
      ∃ k, k < w.bits ∧ AnswersNat (.bfloor w) s (2 ^ k) ∧ 2 ^ k ≤ low s w ∧
        low s w < 2 ^ (k + 1) ∧ AnswersNat (.bwidth w) s (k + 1) ∧
        AnswersNat (.bfloor .w64) (withA s (BitVec.ofNat 64 (low s w))) (2 ^ k))

/-- R76: the relationship invariant, its second half within BCEIL's range; doubling is a rotation by
one as long as the top bit is clear. -/
def Obligations.CeilFloorRelationship : Prop :=
  ∀ (w : Width) (s : State),
    (low s w ≠ 0 →
      ∃ n, 1 ≤ n ∧ n ≤ w.bits ∧ AnswersNat (.bwidth w) s n ∧
        AnswersNat (.bfloor w) s (2 ^ (n - 1)) ∧
        (low s w ≤ 2 ^ (w.bits - 1) →
          (AnswersNat (.hsb w) s 1 → AnswersNat (.bceil w) s (2 ^ (n - 1))) ∧
          (AnswersNat (.hsb w) s 0 → AnswersNat (.bceil w) s (2 ^ n)))) ∧
    (s.s = 1 → low s w < 2 ^ (w.bits - 1) → AnswersNat (.rotl w) s (2 * low s w))

/-- R77: the testable properties of the power-of-two functions, each on its exact domain, at every
width. -/
def Obligations.PowerOfTwoProperties : Prop :=
  ∀ (w : Nat) (x : BitVec w), 0 < w →
    (x ≠ 0 → (hasSingleBit x = true ↔ populationCount x = 1)) ∧
    hasSingleBit (0 : BitVec w) = false ∧
    (bitFloor x).toNat ≤ x.toNat ∧ bitFloor (0 : BitVec w) = 0 ∧
    (bitWidth x = 0 ↔ x = 0) ∧
    (x ≠ 0 → 2 ^ (bitWidth x - 1) ≤ x.toNat ∧ x.toNat < 2 ^ bitWidth x) ∧
    (x ≠ 0 → x.toNat < 2 * (bitFloor x).toNat ∧ hasSingleBit (bitFloor x) = true) ∧
    (hasSingleBit x = true ↔ bitFloor x = x ∧ x ≠ 0) ∧
    bitFloor (bitFloor x) = bitFloor x ∧
    (x.toNat ≤ 2 ^ (w - 1) →
      ∃ v, bitCeil? x = some v ∧ x.toNat ≤ v.toNat ∧ (∃ k, k < w ∧ v.toNat = 2 ^ k) ∧
        (x ≠ 0 → v.toNat < 2 * x.toNat ∧ (hasSingleBit x = true ↔ v = x)) ∧
        hasSingleBit v = true ∧ v.toNat ≤ 2 ^ (w - 1) ∧ bitCeil? v = some v)

/-- R78: how many operands BCEIL has a value for and how many it raises for, and the boundary between
them at each of the four widths. -/
def Obligations.BceilRangeExact : Prop :=
  (∀ w : Nat, 0 < w →
    (Finset.univ.filter fun x : BitVec w => (bitCeil? x).isSome).card = 2 ^ (w - 1) + 1 ∧
    (Finset.univ.filter fun x : BitVec w => (bitCeil? x).isNone).card = 2 ^ (w - 1) - 1) ∧
  (∀ (w : Width) (s : State),
    (low s w = 2 ^ (w.bits - 1) → AnswersNat (.bceil w) s (2 ^ (w.bits - 1))) ∧
    (low s w = 2 ^ (w.bits - 1) + 1 → exec (.bceil w) s = .next (showsError s .precond)))

/-! ## Rotation -/

/-- R81: the effective amount is the one number in `[0, w)` congruent to `s`, and the document's
formula gives it with the floored and with the truncated remainder. -/
def Obligations.EffectiveAmountNormalised : Prop :=
  ∀ (w : Nat) (s : Int), 0 < w →
    effectiveAmount w s < w ∧ (w : Int) ∣ s - effectiveAmount w s ∧
    (∀ r : Nat, r < w → (w : Int) ∣ s - r → r = effectiveAmount w s) ∧
    (effectiveAmount w s : Int) = Int.fmod (Int.fmod s w + w) w ∧
    (effectiveAmount w s : Int) = Int.tmod (Int.tmod s w + w) w

/-- R82: ROTL moves bit `i` to bit `(i + r) mod w`, `r` the amount reduced modulo `w`. -/
def Obligations.RotlMovesBitsUp : Prop :=
  ∀ (w : Width) (s : State), EncodedAs .rotl 0x0003 w ∧
    ∃ (r : Nat) (y : BusWord), r < w.bits ∧ (w.bits : Int) ∣ s.s.toInt - r ∧
      Answers (.rotl w) s y ∧
      (∀ i, i < w.bits → y.getLsbD ((i + r) % w.bits) = s.a.getLsbD i) ∧
      (∀ j, w.bits ≤ j → y.getLsbD j = false) ∧
      y.toNat = ((low s w <<< r) % 2 ^ w.bits) ||| (if r = 0 then 0 else low s w >>> (w.bits - r))

/-- R83: ROTR moves bit `(j + q) mod w` to bit `j`; it is ROTL by the negated integer. -/
def Obligations.RotrMovesBitsDown : Prop :=
  ∀ (w : Width) (s : State), EncodedAs .rotr 0x0004 w ∧
    ∃ (q : Nat) (y : BusWord), q < w.bits ∧ (w.bits : Int) ∣ s.s.toInt - q ∧
      Answers (.rotr w) s y ∧
      (∀ j, j < w.bits → y.getLsbD j = s.a.getLsbD ((j + q) % w.bits)) ∧
      (∀ j, w.bits ≤ j → y.getLsbD j = false) ∧
      (∀ n : ShiftWord, (w.bits : Int) ∣ n.toInt + s.s.toInt → Answers (.rotl w) (withS s n) y)

/-- R84: the laws of rotation, at every width, for every integer amount. -/
def Obligations.RotationLaws : Prop :=
  (∀ (w : Nat) (x z : BitVec w) (s t k : Int), 0 < w →
    rotateRight (rotateLeft x s) s = x ∧ rotateLeft (rotateRight x s) s = x ∧
    rotateLeft x 0 = x ∧ rotateLeft x w = x ∧
    rotateLeft x (s + k * w) = rotateLeft x s ∧ rotateRight x (s + k * w) = rotateRight x s ∧
    rotateLeft (rotateLeft x s) t = rotateLeft x (s + t) ∧
    rotateLeft x (-s) = rotateRight x s ∧ rotateRight x (-s) = rotateLeft x s ∧
    rotateLeft (~~~x) s = ~~~(rotateLeft x s) ∧
    rotateLeft (x &&& z) s = rotateLeft x s &&& rotateLeft z s ∧
    rotateLeft (x ||| z) s = rotateLeft x s ||| rotateLeft z s ∧
    (rotateLeft x s = rotateLeft z s → x = z) ∧ (∃ v : BitVec w, rotateLeft v s = x) ∧
    populationCount (rotateLeft x s) = populationCount x) ∧
  (∀ (w : Width) (x : BitVec w.bits) (m n : ShiftWord),
    rotateLeft (rotateLeft x m.toInt) n.toInt = rotateLeft x (m + n).toInt) ∧
  (∀ x : BitVec 16, rotateLeft x 8 = reverseBytes x ∧ rotateRight x 8 = reverseBytes x) ∧
  (∀ x : BitVec 8, reverseBytes x = x) ∧
  (∀ s : Int, (∃ x : BitVec 32, rotateLeft x s ≠ reverseBytes x) ∧
    ∃ x : BitVec 64, rotateLeft x s ≠ reverseBytes x) ∧
  rotateLeft 0x80#8 1 = 0x01#8 ∧ rotateLeft 0x0080#16 1 = 0x0100#16

/-- R85: only the low 3, 4, 5 or 6 bits of `s` matter, and `s[31:6]` never does. -/
def Obligations.OnlyLowShiftBitsMatter : Prop :=
  (∀ (w : Width) (n : ShiftWord),
    effectiveAmount w.bits n.toInt = n.toNat % w.bits ∧
    effectiveAmount w.bits (-n.toInt) = (w.bits - n.toNat % w.bits) % w.bits) ∧
  (∀ (i : Instr) (s : State) (n : ShiftWord), (∀ j, j < 6 → n.getLsbD j = s.s.getLsbD j) →
    ∃ r, exec i s = .next (s.answer r) ∧ exec i (withS s n) = .next ((withS s n).answer r))

/-- R86: rotating by -2147483648 either way returns the operand, and ROTL by 2147483647 is a rotation
by `w - 1`, a right rotation by one. -/
def Obligations.ExtremeShiftAmounts : Prop :=
  ∀ (w : Width) (s : State),
    (s.s = 0x80000000 → AnswersNat (.rotr w) s (low s w) ∧ AnswersNat (.rotl w) s (low s w)) ∧
    (s.s = 0x7FFFFFFF → effectiveAmount w.bits s.s.toInt = w.bits - 1 ∧
      ∃ y, Answers (.rotl w) s y ∧ Answers (.rotr w) (withS s 1) y)

/-! ## Byte order -/

/-- R90: byte reversal puts byte `n-1-k` in the place of byte `k`, bits in a byte in their order, at
every width of whole bytes. -/
def Obligations.ByteReversalAlgorithm : Prop :=
  ∀ (w : Nat) (x : BitVec w), 8 ∣ w →
    (∀ k, k < w / 8 → byteOf (reverseBytes x) k = byteOf x (w / 8 - 1 - k)) ∧
    (∀ k j, k < w / 8 → j < 8 →
      (reverseBytes x).getLsbD (8 * k + j) = x.getLsbD (8 * (w / 8 - 1 - k) + j)) ∧
    (reverseBytes x).toNat =
      ((List.range (w / 8)).map fun k => (byteOf x k).toNat * 2 ^ (8 * (w / 8 - 1 - k))).sum

/-- R91: BSWAP reverses the bytes of the operand; twice restores it; one byte is left alone; strict
mode removes it. -/
def Obligations.BswapReversesBytes : Prop :=
  ∀ (w : Width) (s : State), EncodedAs .bswap 0x0008 w ∧
    (∃ y, Answers (.bswap w) s y ∧
      (∀ k j, k < w.bits / 8 → j < 8 →
        y.getLsbD (8 * k + j) = s.a.getLsbD (8 * (w.bits / 8 - 1 - k) + j)) ∧
      (∀ j, w.bits ≤ j → y.getLsbD j = false) ∧
      AnswersNat (.bswap w) (withA s y) (low s w) ∧
      (w = .w8 → y.toNat = low s w)) ∧
    (s.driven = true → s.config.strictMode = true → s.cmd = encode (.bswap w) →
      step s = .next (showsError s .illegal))

/-- R92: ENDCONV returns the operand when its tags resolve to the same order and reverses its bytes
when they do not, whichever tag comes first; a reserved tag or strict mode makes its word illegal. -/
def Obligations.EndconvComparesOrders : Prop :=
  ∀ (w : Width) (source target : OrderTag) (s : State),
    (∀ wsel, w.bits = 8 * 2 ^ wsel → (encode (.endconv w source target)).toNat =
      0x0009 + 16 * wsel + 64 * tagCode source + 256 * tagCode target) ∧
    ReversesExactlyWhen (.endconv w source target) w s (tagOrder s source ≠ tagOrder s target) ∧
    exec (.endconv w source target) s = exec (.endconv w target source) s ∧
    (s.driven = true → s.cmd.toNat % 16 = 9 →
      (s.cmd.toNat / 64 % 4 = 3 ∨ s.cmd.toNat / 256 % 4 = 3 ∨ s.config.strictMode = true) →
      step s = .next (showsError s .illegal))

/-- R93, with the resolution of R88 and R89: ENDEQ is 1 exactly when its tags resolve to the same
order; a reserved tag or a width makes its word illegal, strict mode does not. -/
def Obligations.EndeqComparesOrders : Prop :=
  ∀ (left right : OrderTag) (s : State),
    (encode (.endeq left right)).toNat = 0x000E + 64 * tagCode left + 256 * tagCode right ∧
    (tagOrder s left = tagOrder s right → AnswersNat (.endeq left right) s 1) ∧
    (tagOrder s left ≠ tagOrder s right → AnswersNat (.endeq left right) s 0) ∧
    (∀ strict, decode strict (encode (.endeq left right)) = .ok (.endeq left right)) ∧
    (s.driven = true → s.cmd.toNat % 16 = 14 →
      (s.cmd.toNat / 64 % 4 = 3 ∨ s.cmd.toNat / 256 % 4 = 3 ∨ s.cmd.toNat / 16 % 4 ≠ 0) →
      step s = .next (showsError s .illegal))

/-- R94: the document's conversion functions and when each reverses the bytes. -/
def Obligations.NamedConversions : Prop :=
  ∀ (w : Width) (t : OrderTag) (s : State),
    ReversesExactlyWhen (Pseudo.toBigEndian w).expand w s (s.config.nativeOrder = .little) ∧
    ReversesExactlyWhen (Pseudo.toBigEndianFrom w t).expand w s (tagOrder s t = .little) ∧
    ReversesExactlyWhen (Pseudo.toLittleEndian w).expand w s (s.config.nativeOrder = .big) ∧
    ReversesExactlyWhen (Pseudo.toLittleEndianFrom w t).expand w s (tagOrder s t = .big) ∧
    ReversesExactlyWhen (Pseudo.toNativeEndianFrom w t).expand w s
      (tagOrder s t ≠ s.config.nativeOrder) ∧
    ReversesExactlyWhen (Pseudo.asBigEndian w).expand w s (s.config.nativeOrder = .little) ∧
    ReversesExactlyWhen (Pseudo.asLittleEndian w).expand w s (s.config.nativeOrder = .big) ∧
    ReversesExactlyWhen (Pseudo.asNativeEndian w).expand w s False

/-- R96: at one byte every conversion is the identity, and the word is still decoded in full. -/
def Obligations.SingleByteUnchanged : Prop :=
  (∀ (t u : OrderTag) (s : State),
    AnswersNat (.endconv .w8 t u) s (low s .w8) ∧ AnswersNat (.bswap .w8) s (low s .w8)) ∧
  (∀ s : State, s.driven = true → s.cmd.toNat % 64 = 0x09 →
    (s.cmd.toNat / 64 % 4 = 3 ∨ s.cmd.toNat / 256 % 4 = 3 ∨ s.config.strictMode = true) →
    step s = .next (showsError s .illegal))

/-- R97: converting and converting back recovers the operand, and so does the same conversion
twice. -/
def Obligations.ConversionRoundTrip : Prop :=
  ∀ (w : Width) (t u : OrderTag) (s : State),
    ∃ y, Answers (.endconv w t u) s y ∧
      AnswersNat (.endconv w u t) (withA s y) (low s w) ∧
      AnswersNat (.endconv w t u) (withA s y) (low s w)

/-- R99: the complete table of ENDCONV and ENDEQ; `true` stands for `id`, the columns are
NATIVE_ORDER little and big. -/
def Obligations.ConversionTable : Prop :=
  ∀ row ∈ ([(.little, .little, true, true), (.little, .big, false, false),
      (.little, .native, true, false), (.big, .little, false, false), (.big, .big, true, true),
      (.big, .native, false, true), (.native, .little, true, false),
      (.native, .big, false, true), (.native, .native, true, true)] :
      List (OrderTag × OrderTag × Bool × Bool)),
    ∀ (w : Width) (s : State),
      let identity := match s.config.nativeOrder with
        | .little => row.2.2.1
        | .big => row.2.2.2
      ReversesExactlyWhen (.endconv w row.1 row.2.1) w s (identity = false) ∧
      AnswersNat (.endeq row.1 row.2.1) s identity.toNat

/-! ## Reinterpretation -/

/-- R58: BITCAST returns the same `w` bits, there and back. -/
def Obligations.BitcastKeepsPattern : Prop :=
  ∀ (w : Width) (s : State), EncodedAs .bitcast 0x000D w ∧
    ∃ y, Answers (.bitcast w) s y ∧ y.toNat = low s w ∧ Answers (.bitcast w) (withA s y) y

/-! ## Many transactions -/

/-- R32: on one instance or on several with the same parameters, in any order, each command has
exactly the outcome it would have alone. -/
def Obligations.TransactionsIndependent : Prop :=
  (∀ (s u : State) (commands : List Command), s.config = u.config →
    runCommands s commands = commands.map fun c => answerOf (step (u.present c))) ∧
  (∀ (s u : State) (first second : List Command), s.config = u.config → first.Perm second →
    (runCommands s first).Perm (runCommands u second))

/-- R53 and R121: in a script each line is answered as the command it stands for would be alone, its
operand the host's own forwarding of an earlier result. -/
def Obligations.ScriptLinesAnswerAlone : Prop :=
  ∀ (s t : State) (lines : List Line) (answers : List Answer),
    runScript s [] lines = some (t, answers) →
    ∀ (k : Nat) (l : Line), lines[k]? = some l →
      ∃ c, l.command? (answers.take k) = some c ∧ c.cmd = l.op.word ∧
        answers[k]? = answerOf (step (s.present c)) ∧
        (∀ n, l.operand = .result n →
          ∃ y, answers[n - 1]? = some (.ok y) ∧ n ≤ k ∧
            c.a.toNat = y.toNat % 2 ^ l.op.operandBits)

/-- R115 and R123: the end of a script is good exactly when every line has a result, and it is good
when every word is legal and every operand of BCEIL within its range. -/
def Obligations.ScriptsInRangeEndWell : Prop :=
  (∀ (s : State) (lines : List Line), SafeScript s lines ↔
    ∃ t answers, runScript s [] lines = some (t, answers) ∧
      ∀ k, k < lines.length → ∃ y, answers[k]? = some (.ok y)) ∧
  (∀ (s : State) (lines : List Line),
    (∀ (k : Nat) (l : Line), lines[k]? = some l → l.wellFormed k = true ∧
      ∃ v i, l.operand = .literal v ∧ decode s.config.strictMode l.op.word = .ok i ∧
        ∀ w, i = .bceil w → v % 2 ^ w.bits ≤ 2 ^ (w.bits - 1)) →
    SafeScript s lines)

/-- R110: an error is not sticky; the next transaction is decided as if it had not happened. -/
def Obligations.ErrorsAreNotSticky : Prop :=
  ∀ (s : State) (e : ErrorKind) (c : Command),
    step ((s.raise e).present c) = step (s.present c)

/-! ## Power-up and parameters -/

/-- R8, R9, R22: no step and no act of the host changes NATIVE_ORDER or STRICT_MODE. -/
def Obligations.ParametersNeverChange : Prop :=
  (∀ s t : State, step s = .next t → t.config = s.config) ∧
  (∀ (s : State) (c : Command), (s.present c).config = s.config) ∧
  (∀ (s : State) (nbits w : Nat), (s.withFetchWord nbits w).config = s.config)

/-- R23, R116, R117: an instance at power-up has its parameters and shows nothing. That there is then
no transaction, and STRICT_MODE 0 at reset, are the model's choices (assumption log 3 and 5). -/
def Obligations.PowerUpShowsNothing : Prop :=
  (∀ g : Config, (State.powerUp g).config = g ∧ (State.powerUp g).out = none ∧
    (State.powerUp g).errPort = none ∧ (State.powerUp g).yPort = none ∧
    step (State.powerUp g) = .fault .inputsNotDriven) ∧
  State.reset.config.strictMode = false ∧ State.reset.out = none
end

