-- ==== Sys2Proof/Laws/State.lean ====
section
/-! SUPPORT. One lemma per field and update of the state, so that no proof unfolds a record update. -/

namespace Sys2Proof.Machine

variable (s : State) (c : Command) (r : Answer) (g : Config)

@[simp] theorem State.present_config : (s.present c).config = s.config := rfl
@[simp] theorem State.present_cmd : (s.present c).cmd = c.cmd := rfl
@[simp] theorem State.present_a : (s.present c).a = c.a := rfl
@[simp] theorem State.present_s : (s.present c).s = c.s := rfl
@[simp] theorem State.present_driven : (s.present c).driven = true := rfl
@[simp] theorem State.present_out : (s.present c).out = none := rfl

@[simp] theorem State.answer_config : (s.answer r).config = s.config := rfl
@[simp] theorem State.answer_cmd : (s.answer r).cmd = s.cmd := rfl
@[simp] theorem State.answer_a : (s.answer r).a = s.a := rfl
@[simp] theorem State.answer_s : (s.answer r).s = s.s := rfl
@[simp] theorem State.answer_driven : (s.answer r).driven = s.driven := rfl
@[simp] theorem State.answer_out : (s.answer r).out = some r := rfl
@[simp] theorem State.answer_answer (r' : Answer) : (s.answer r).answer r' = s.answer r' := rfl
@[simp] theorem State.answer_fetch : (s.answer r).fetch = s.fetch := rfl
@[simp] theorem State.answer_operand (w : Width) : (s.answer r).operand w = s.operand w := rfl
@[simp] theorem State.answer_shiftAmount : (s.answer r).shiftAmount = s.shiftAmount := rfl

@[simp] theorem State.present_operand (w : Width) :
    (s.present c).operand w = c.a.setWidth w.bits := rfl
@[simp] theorem State.present_shiftAmount : (s.present c).shiftAmount = c.s.toInt := rfl
@[simp] theorem State.present_fetch : (s.present c).fetch = c.cmd := rfl

theorem State.driveValue_eq {w : Nat} (v : BitVec w) :
    s.driveValue v = s.answer (.ok (v.setWidth 64)) := rfl
theorem State.driveCount_eq (n : Nat) : s.driveCount n = s.answer (.ok (BitVec.ofNat 64 n)) := rfl
theorem State.driveTruth_eq (b : Bool) :
    s.driveTruth b = s.answer (.ok (if b then 1 else 0)) := rfl
theorem State.raise_eq (e : ErrorKind) : s.raise e = s.answer (.error e) := rfl

@[simp] theorem State.powerUp_config : (State.powerUp g).config = g := rfl
@[simp] theorem State.powerUp_driven : (State.powerUp g).driven = false := rfl
@[simp] theorem State.powerUp_out : (State.powerUp g).out = none := rfl

@[simp] theorem answerOf_next : answerOf (.next s) = s.out := rfl

theorem Width.bits_pos (w : Width) : 0 < w.bits := by cases w <;> decide
theorem Width.bits_le (w : Width) : w.bits ≤ 64 := by cases w <;> decide

/-- The operand as a number: the low `w` bits of port `a`. -/
theorem State.operand_toNat (w : Width) : (s.operand w).toNat = s.a.toNat % 2 ^ w.bits := by
  simp [State.operand]

/-- The operand bit by bit. -/
theorem State.operand_getLsbD (w : Width) (j : Nat) (h : j < w.bits) :
    (s.operand w).getLsbD j = s.a.getLsbD j := by
  simp [State.operand, h]

end Sys2Proof.Machine
end

