-- ==== Sys2Proof/Laws/Counting.lean ====
section
/-! SUPPORT. What the loops of the bit-counting commands compute. -/

namespace Sys2Proof.Laws

open Sys2Proof.Machine

variable {w : Nat} (b : Bool) (x : BitVec w)

theorem leadingRun_le (i : Nat) : leadingRun b x i ≤ i := by
  induction i with
  | zero => simp [leadingRun]
  | succ i ih => simp only [leadingRun]; split <;> omega

/-- The downward loop says exactly: a block of bits equal to `b`, ended by one that differs. -/
theorem leadingRun_iff (i n : Nat) :
    leadingRun b x i = n ↔
      n ≤ i ∧ (∀ j, i - n ≤ j → j < i → x.getLsbD j = b) ∧
      (n < i → x.getLsbD (i - 1 - n) = !b) := by
  induction i generalizing n with
  | zero => simp [leadingRun]; omega
  | succ i ih =>
    simp only [leadingRun]
    split
    · rename_i hb
      cases n with
      | zero =>
        simp only [Nat.add_eq_zero_iff, one_ne_zero, and_false, false_iff]
        rintro ⟨-, -, h⟩
        have := h (by omega)
        simp [hb] at this
      | succ n =>
        rw [Nat.add_right_cancel_iff, ih n]
        constructor
        · rintro ⟨h1, h2, h3⟩
          refine ⟨by omega, fun j hj hj' => ?_, fun hn => ?_⟩
          · by_cases hji : j = i
            · exact hji ▸ hb
            · exact h2 j (by omega) (by omega)
          · have := h3 (by omega)
            rwa [show i + 1 - 1 - (n + 1) = i - 1 - n by omega]
        · rintro ⟨h1, h2, h3⟩
          refine ⟨by omega, fun j hj hj' => h2 j (by omega) (by omega), fun hn => ?_⟩
          have := h3 (by omega)
          rwa [show i + 1 - 1 - (n + 1) = i - 1 - n by omega] at this
    · rename_i hb
      constructor
      · rintro rfl
        refine ⟨by omega, fun j _ _ => by omega, fun _ => ?_⟩
        show x.getLsbD i = !b
        exact Bool.eq_not.2 hb
      · rintro ⟨h1, h2, -⟩
        by_contra hn
        exact hb (h2 i (by omega) (by omega))

theorem trailingRun_le (left i : Nat) : trailingRun b x i left ≤ left := by
  induction left generalizing i with
  | zero => simp [trailingRun]
  | succ l ih => simp only [trailingRun]; split <;> [have := ih (i + 1); skip] <;> omega

/-- The upward loop says exactly: a block of bits equal to `b`, ended by one that differs. -/
theorem trailingRun_iff (left i n : Nat) :
    trailingRun b x i left = n ↔
      n ≤ left ∧ (∀ j, i ≤ j → j < i + n → x.getLsbD j = b) ∧
      (n < left → x.getLsbD (i + n) = !b) := by
  induction left generalizing i n with
  | zero => simp [trailingRun]; constructor <;> intro h <;> [(constructor <;> intros <;> omega); omega]
  | succ l ih =>
    simp only [trailingRun]
    split
    · rename_i hb
      cases n with
      | zero =>
        simp only [Nat.add_eq_zero_iff, one_ne_zero, and_false, false_iff]
        rintro ⟨-, -, h⟩
        have := h (by omega)
        simp [hb] at this
      | succ n =>
        rw [Nat.add_right_cancel_iff, ih (i + 1) n]
        constructor
        · rintro ⟨h1, h2, h3⟩
          refine ⟨by omega, fun j hj hj' => ?_, fun hn => ?_⟩
          · by_cases hji : j = i
            · exact hji ▸ hb
            · exact h2 j (by omega) (by omega)
          · rw [show i + (n + 1) = i + 1 + n by omega]
            exact h3 (by omega)
        · rintro ⟨h1, h2, h3⟩
          refine ⟨by omega, fun j hj hj' => h2 j (by omega) (by omega), fun hn => ?_⟩
          rw [show i + 1 + n = i + (n + 1) by omega]
          exact h3 (by omega)
    · rename_i hb
      constructor
      · rintro rfl
        refine ⟨by omega, fun j _ _ => by omega, fun _ => ?_⟩
        show x.getLsbD i = !b
        exact Bool.eq_not.2 hb
      · rintro ⟨h1, h2, -⟩
        by_contra hn
        exact hb (h2 i (by omega) (by omega))

theorem onesBelow_le (i : Nat) : onesBelow x i ≤ i := by
  induction i with
  | zero => simp [onesBelow]
  | succ i ih => simp only [onesBelow]; have := Bool.toNat_le (x.getLsbD i); omega

/-- The counting loop counts the positions that hold a 1. -/
theorem onesBelow_eq_countP (i : Nat) :
    onesBelow x i = (List.range i).countP fun j => x.getLsbD j := by
  induction i with
  | zero => rfl
  | succ i ih =>
    simp only [onesBelow, ih, List.range_succ, List.countP_append, List.countP_singleton]
    cases x.getLsbD i <;> rfl

theorem countLeadingZeros_le : countLeadingZeros x ≤ w := leadingRun_le _ _ _
theorem countLeadingOnes_le : countLeadingOnes x ≤ w := leadingRun_le _ _ _
theorem countTrailingZeros_le : countTrailingZeros x ≤ w := trailingRun_le _ _ _ _
theorem countTrailingOnes_le : countTrailingOnes x ≤ w := trailingRun_le _ _ _ _
theorem populationCount_le : populationCount x ≤ w := onesBelow_le _ _

/-- The loop over the low `i` bits complements to 0 what `Nat.size` of those bits measures. -/
theorem leadingRun_add_size (i : Nat) :
    leadingRun false x i + Nat.size (x.toNat % 2 ^ i) = i := by
  induction i with
  | zero => simp [leadingRun, Nat.mod_one]
  | succ i ih =>
    have hsplit : x.toNat % 2 ^ (i + 1) = x.toNat % 2 ^ i + 2 ^ i * (x.getLsbD i).toNat := by
      rw [Nat.mod_pow_succ, BitVec.getLsbD, Nat.testBit_eq_decide_div_mod_eq]
      have : x.toNat / 2 ^ i % 2 < 2 := Nat.mod_lt _ (by norm_num)
      rcases (show x.toNat / 2 ^ i % 2 = 0 ∨ x.toNat / 2 ^ i % 2 = 1 by omega) with h | h <;>
        simp [h]
    have hlt : x.toNat % 2 ^ i < 2 ^ i := Nat.mod_lt _ (by positivity)
    simp only [leadingRun]
    cases hb : x.getLsbD i
    · simp only [hb, Bool.toNat_false, mul_zero, add_zero] at hsplit
      simp only [hsplit, if_true]; omega
    · simp only [hb, Bool.toNat_true, mul_one] at hsplit
      rw [hsplit, if_neg (by simp), zero_add]
      refine le_antisymm (Nat.size_le.2 ?_) (Nat.lt_size.2 (by omega))
      rw [pow_succ]; omega

end Sys2Proof.Laws
end

