-- ==== Sys2Proof/Laws/Decode.lean ====
section
/-! SUPPORT. The fields of a command word as arithmetic. -/

namespace Sys2Proof.Laws

open Sys2Proof.Machine

theorem field_eq (c : CommandWord) (hi lo : Nat) :
    c.field hi lo = c.toNat / 2 ^ lo % 2 ^ (hi - lo + 1) := by
  simp [CommandWord.field, Nat.shiftRight_eq_div_pow]

theorem field_op (c : CommandWord) : c.field 3 0 = c.toNat % 16 := by simp [field_eq]
theorem field_wsel (c : CommandWord) : c.field 5 4 = c.toNat / 16 % 4 := by simp [field_eq]
theorem field_ta (c : CommandWord) : c.field 7 6 = c.toNat / 64 % 4 := by simp [field_eq]
theorem field_tb (c : CommandWord) : c.field 9 8 = c.toNat / 256 % 4 := by simp [field_eq]
theorem field_zero (c : CommandWord) : c.field 15 10 = c.toNat / 1024 % 64 := by simp [field_eq]

/-- A word is its five fields (R39). -/
theorem toNat_eq_fields (c : CommandWord) :
    c.toNat = c.field 3 0 + 16 * c.field 5 4 + 64 * c.field 7 6 + 256 * c.field 9 8 +
      1024 * c.field 15 10 := by
  rw [field_op, field_wsel, field_ta, field_tb, field_zero]
  have := c.isLt
  omega

theorem fieldOfWidth_lt (w : Width) : fieldOfWidth w < 4 := by cases w <;> decide
theorem fieldOfTag_lt (t : OrderTag) : fieldOfTag t < 3 := by cases t <;> decide

@[simp] theorem widthOfField_fieldOfWidth (w : Width) : widthOfField (fieldOfWidth w) = w := by
  cases w <;> rfl
@[simp] theorem tagOfField_fieldOfTag (t : OrderTag) : tagOfField (fieldOfTag t) = some t := by
  cases t <;> rfl

theorem fieldOfWidth_widthOfField (n : Nat) (h : n < 4) : fieldOfWidth (widthOfField n) = n := by
  interval_cases n <;> rfl

/-- A tag field holds a tag exactly below 3 (R42). -/
theorem tagOfField_eq_some (n : Nat) (t : OrderTag) : tagOfField n = some t ↔ n = fieldOfTag t := by
  match n with
  | 0 => cases t <;> simp [tagOfField, fieldOfTag]
  | 1 => cases t <;> simp [tagOfField, fieldOfTag]
  | 2 => cases t <;> simp [tagOfField, fieldOfTag]
  | n + 3 => cases t <;> simp [tagOfField, fieldOfTag]

theorem width_bits_eq (n : Nat) (h : n < 4) : (widthOfField n).bits = 8 * 2 ^ n := by
  interval_cases n <;> rfl

end Sys2Proof.Laws
end

