-- ==== Sys2Proof/Laws/Endianness.lean ====
section
/-! SUPPORT. The bits of a byte reversal. -/

namespace Sys2Proof.Laws

open Sys2Proof.Machine

variable {w : Nat} (x : BitVec w)

theorem byteOf_getLsbD (k j : Nat) (h : j < 8) :
    (byteOf x k).getLsbD j = x.getLsbD (8 * k + j) := by
  simp [byteOf, h]

/-- What the loop of R91 has written after `k` turns, bit by bit. -/
theorem reversedBelow_getLsbD (n k p : Nat) (hp : p < w) :
    (reversedBelow x n k).getLsbD p =
      (decide (p / 8 < k) && x.getLsbD (8 * (n - 1 - p / 8) + p % 8)) := by
  induction k with
  | zero => simp [reversedBelow]
  | succ k ih =>
    simp only [reversedBelow, BitVec.getLsbD_or, ih, BitVec.getLsbD_shiftLeft,
      BitVec.getLsbD_setWidth, hp, decide_true, Bool.true_and]
    rcases Nat.lt_trichotomy (p / 8) k with h | h | h
    · have : p < 8 * k := by omega
      simp [h, this, show p / 8 < k + 1 by omega]
    · have e1 : ¬ p < 8 * k := by omega
      have e2 : p - 8 * k = p % 8 := by omega
      have e3 : p % 8 < w := by omega
      rw [e2, byteOf_getLsbD _ _ _ (Nat.mod_lt _ (by norm_num))]
      simp [h, e1, e3]
    · have e1 : ¬ p < 8 * k := by omega
      have e2 : ¬ p - 8 * k < 8 := by omega
      have e3 : (byteOf x (n - 1 - k)).getLsbD (p - 8 * k) = false :=
        BitVec.getLsbD_of_ge _ _ (by omega)
      simp [show ¬ p / 8 < k by omega, show ¬ p / 8 < k + 1 by omega, e3]

/-- The bit-level form of R90. -/
theorem reverseBytes_getLsbD (hw : 8 ∣ w) (k j : Nat) (hk : k < w / 8) (hj : j < 8) :
    (reverseBytes x).getLsbD (8 * k + j) = x.getLsbD (8 * (w / 8 - 1 - k) + j) := by
  have hd : (8 * k + j) / 8 = k := by omega
  have hm : (8 * k + j) % 8 = j := by omega
  rw [reverseBytes, reversedBelow_getLsbD _ _ _ _ (by omega), hd, hm]
  simp [hk]

/-- Reversing twice restores the value (R91). -/
theorem reverseBytes_reverseBytes (hw : 8 ∣ w) : reverseBytes (reverseBytes x) = x := by
  apply BitVec.eq_of_getLsbD_eq
  intro p hp
  have h := reverseBytes_getLsbD (reverseBytes x) hw (p / 8) (p % 8) (by omega) (by omega)
  rw [reverseBytes_getLsbD x hw _ _ (by omega) (by omega)] at h
  rw [show 8 * (p / 8) + p % 8 = p by omega] at h
  rw [h]; congr 1; omega

theorem Width.eight_dvd (w : Width) : 8 ∣ w.bits := by cases w <;> decide

end Sys2Proof.Laws
end

