-- ==== Sys2Proof/Laws/PerInstr.lean ====
section
/-! SUPPORT. Facts about every command as syntax, one lemma per constructor. Family `RowMatch`: the
word of a command matches the opcode-table row of its mnemonic (`30_encoding.md` R56). -/

namespace Sys2Proof.Laws.RowMatch

open Sys2Proof.Machine

/-- A row carries the command's mnemonic exactly when it selects the command's word. -/
def Statement (i : Instr) : Prop :=
  ∀ row ∈ opcodeTable, row.selects false (encode i) = decide (row.mnemonic = i.mnemonic)

theorem clz (w : Width) : Statement (.clz w) := by cases w <;> (unfold Statement; decide)
theorem ctz (w : Width) : Statement (.ctz w) := by cases w <;> (unfold Statement; decide)
theorem popcnt (w : Width) : Statement (.popcnt w) := by cases w <;> (unfold Statement; decide)
theorem rotl (w : Width) : Statement (.rotl w) := by cases w <;> (unfold Statement; decide)
theorem rotr (w : Width) : Statement (.rotr w) := by cases w <;> (unfold Statement; decide)
theorem bceil (w : Width) : Statement (.bceil w) := by cases w <;> (unfold Statement; decide)
theorem bfloor (w : Width) : Statement (.bfloor w) := by cases w <;> (unfold Statement; decide)
theorem bwidth (w : Width) : Statement (.bwidth w) := by cases w <;> (unfold Statement; decide)
theorem bswap (w : Width) : Statement (.bswap w) := by cases w <;> (unfold Statement; decide)
theorem endconv (w : Width) (source target : OrderTag) : Statement (.endconv w source target) := by
  cases w <;> cases source <;> cases target <;> (unfold Statement; decide)
theorem clo (w : Width) : Statement (.clo w) := by cases w <;> (unfold Statement; decide)
theorem cto (w : Width) : Statement (.cto w) := by cases w <;> (unfold Statement; decide)
theorem hsb (w : Width) : Statement (.hsb w) := by cases w <;> (unfold Statement; decide)
theorem bitcast (w : Width) : Statement (.bitcast w) := by cases w <;> (unfold Statement; decide)
theorem endeq (left right : OrderTag) : Statement (.endeq left right) := by
  cases left <;> cases right <;> (unfold Statement; decide)

end Sys2Proof.Laws.RowMatch
end

