-- ==== Sys2Proof/Laws/PowerOfTwo.lean ====
section
/-! SUPPORT. The power-of-two functions in terms of the size of a natural number. -/

namespace Sys2Proof.Laws

open Sys2Proof.Machine

variable {w : Nat} (x : BitVec w)

theorem countLeadingZeros_eq : countLeadingZeros x = w - Nat.size x.toNat := by
  have := leadingRun_add_size x w
  rw [Nat.mod_eq_of_lt x.isLt] at this
  simp only [countLeadingZeros]; omega

theorem size_le_width : Nat.size x.toNat ≤ w := Nat.size_le.2 x.isLt

/-- `BWIDTH_w` is the size of the operand as a number, at every width. -/
theorem bitWidth_eq_size : bitWidth x = Nat.size x.toNat := by
  have := size_le_width x
  unfold bitWidth
  split
  · rename_i h; simp [h]
  · rw [countLeadingZeros_eq]; omega

theorem bitWidth_le : bitWidth x ≤ w := bitWidth_eq_size x ▸ size_le_width x

theorem lt_two_pow_bitWidth : x.toNat < 2 ^ bitWidth x :=
  bitWidth_eq_size x ▸ Nat.lt_size_self _

theorem bitWidth_pos (h : x ≠ 0) : 0 < bitWidth x := by
  rw [bitWidth_eq_size]
  refine Nat.size_pos.2 (Nat.pos_of_ne_zero fun h0 => h ?_)
  exact BitVec.eq_of_toNat_eq (by simpa using h0)

theorem two_pow_le_of_bitWidth (h : x ≠ 0) : 2 ^ (bitWidth x - 1) ≤ x.toNat := by
  have hp := bitWidth_pos x h
  rw [bitWidth_eq_size] at hp ⊢
  exact Nat.lt_size.1 (by omega)

/-- The floor as a number. -/
theorem bitFloor_toNat (h : x ≠ 0) : (bitFloor x).toNat = 2 ^ (bitWidth x - 1) := by
  have hp := bitWidth_pos x h
  have hl := bitWidth_le x
  simp only [bitFloor, if_neg h, BitVec.toNat_ofNat]
  exact Nat.mod_eq_of_lt (Nat.pow_lt_pow_right (by norm_num) (by omega))

/-- The ceiling has a value exactly up to `2^(w-1)`. -/
theorem bitCeil?_isSome : (bitCeil? x).isSome = decide (x.toNat ≤ 2 ^ (w - 1)) := by
  unfold bitCeil?
  split
  · rename_i h; simp [Nat.not_le.2 h]
  · rename_i h; split <;> simp [Nat.not_lt.1 h]

/-- The ceiling as a number, within its range: the exponent is the size of `x - 1`. -/
theorem bitCeil?_eq (hw : 0 < w) (h : x.toNat ≤ 2 ^ (w - 1)) :
    ∃ v, bitCeil? x = some v ∧ v.toNat = 2 ^ Nat.size (x.toNat - 1) := by
  have h1 : 2 ^ (w - 1) < 2 ^ w := Nat.pow_lt_pow_right (by norm_num) (by omega)
  unfold bitCeil?
  rw [if_neg (Nat.not_lt.2 h)]
  split
  · rename_i hx
    refine ⟨_, rfl, ?_⟩
    have hz : x.toNat - 1 = 0 := by omega
    have : 1 < 2 ^ w := Nat.one_lt_two_pow (by omega)
    simp [hz, Nat.mod_eq_of_lt this]
  · rename_i hx
    refine ⟨_, rfl, ?_⟩
    have hsub : (x - 1).toNat = x.toNat - 1 := by
      have : 1 < 2 ^ w := Nat.one_lt_two_pow (by omega)
      rw [BitVec.toNat_sub_of_le (by rw [BitVec.le_def]; simp [Nat.mod_eq_of_lt this]; omega)]
      simp [Nat.mod_eq_of_lt this]
    rw [bitWidth_eq_size, hsub, BitVec.toNat_ofNat]
    have hs : Nat.size (x.toNat - 1) ≤ w - 1 := Nat.size_le.2 (by omega)
    exact Nat.mod_eq_of_lt (Nat.pow_lt_pow_right (by norm_num) (by omega))

end Sys2Proof.Laws
end

