-- ==== Sys2Proof/Laws/Rotation.lean ====
section
/-! SUPPORT. The effective amount and the bits of a rotation. -/

namespace Sys2Proof.Laws

open Sys2Proof.Machine

variable {w : Nat}

/-- The property that defines the effective amount: in `[0, w)` and congruent to `s` (R81). -/
theorem effectiveAmount_spec (hw : 0 < w) (s : Int) :
    effectiveAmount w s < w ∧ (w : Int) ∣ s - effectiveAmount w s := by
  have h0 := Int.emod_nonneg s (show (w : Int) ≠ 0 by omega)
  have h1 := Int.emod_lt_of_pos s (show (0 : Int) < w by omega)
  have h2 : ((s % (w : Int)).toNat : Int) = s % w := Int.toNat_of_nonneg h0
  exact ⟨by unfold effectiveAmount; omega, by
    unfold effectiveAmount; rw [h2]; exact Int.dvd_self_sub_emod⟩

/-- Amounts that are congruent modulo the width are the same amount. -/
theorem effectiveAmount_congr {s t : Int} (h : (w : Int) ∣ s - t) :
    effectiveAmount w s = effectiveAmount w t := by
  unfold effectiveAmount; rw [Int.emod_eq_emod_iff_emod_sub_eq_zero.2 (Int.emod_eq_zero_of_dvd h)]

theorem effectiveAmount_unique (r : Nat) (s : Int) (h : r < w) (hd : (w : Int) ∣ s - r) :
    effectiveAmount w s = r := by
  rw [effectiveAmount_congr hd]
  unfold effectiveAmount
  rw [Int.emod_eq_of_lt (by omega) (by omega)]; omega

/-- The rotation of R82 is the library's rotation by the effective amount. -/
theorem rotateLeft_eq (x : BitVec w) (s : Int) :
    rotateLeft x s = x.rotateLeft (effectiveAmount w s) := by
  rcases Nat.eq_zero_or_pos w with rfl | hw
  · exact Subsingleton.elim _ _
  · have h := (effectiveAmount_spec hw s).1
    simp only [rotateLeft]
    split
    · rename_i h0
      rw [h0]
      simp [BitVec.rotateLeft, BitVec.rotateLeftAux, BitVec.ushiftRight_eq_zero]
    · simp [BitVec.rotateLeft, BitVec.rotateLeftAux, Nat.mod_eq_of_lt h]

/-- The bit-level form of R82: bit `i` goes to bit `(i + r) mod w`. -/
theorem rotateLeft_getLsbD (x : BitVec w) (s : Int) (i : Nat) (h : i < w) :
    (rotateLeft x s).getLsbD ((i + effectiveAmount w s) % w) = x.getLsbD i := by
  have hr := (effectiveAmount_spec (by omega : 0 < w) s).1
  rw [rotateLeft_eq, BitVec.getLsbD_rotateLeft, Nat.mod_eq_of_lt hr]
  by_cases hc : i + effectiveAmount w s < w
  · rw [Nat.mod_eq_of_lt hc]
    simp [hc, show ¬ i + effectiveAmount w s < effectiveAmount w s by omega]
  · rw [Nat.mod_eq_sub_mod (by omega), Nat.mod_eq_of_lt (by omega)]
    simp only [show i + effectiveAmount w s - w < effectiveAmount w s by omega, decide_true,
      cond_true]
    congr 1; omega

/-- The same read backwards: bit `j` of the result is bit `(j + w - r) mod w` of the operand. -/
theorem rotateLeft_getLsbD' (x : BitVec w) (s : Int) (j : Nat) (h : j < w) :
    (rotateLeft x s).getLsbD j = x.getLsbD ((j + (w - effectiveAmount w s)) % w) := by
  have hr := (effectiveAmount_spec (by omega : 0 < w) s).1
  rw [← rotateLeft_getLsbD x s _ (Nat.mod_lt _ (by omega))]
  congr 1
  rw [Nat.mod_add_mod, show j + (w - effectiveAmount w s) + effectiveAmount w s = j + w by omega,
    Nat.add_mod_right, Nat.mod_eq_of_lt h]

end Sys2Proof.Laws
end

