-- ==== Sys2Proof/Laws/Step.lean ====
section
/-! SUPPORT. Everything a command and a step can do, said once. -/

namespace Sys2Proof.Laws

open Sys2Proof.Machine

/-- A command's whole effect is one answer on the output ports. -/
theorem exec_answers (i : Instr) (s : State) : ∃ r, exec i s = .next (s.answer r) := by
  cases i
  case bceil w =>
    simp only [exec, execBceil]
    split
    · exact ⟨_, rfl⟩
    · exact ⟨_, rfl⟩
  all_goals exact ⟨_, rfl⟩

/-- An answer already shown plays no part in what a command does. -/
theorem exec_after_answer (i : Instr) (s : State) (r : Answer) :
    exec i (s.answer r) = exec i s := by
  cases i
  case bceil w =>
    simp only [exec, execBceil, State.answer_operand]
    split <;> rfl
  all_goals rfl

/-- A step is a fault, an illegal word or a command. -/
theorem step_cases (s : State) :
    (s.driven = false ∧ step s = .fault .inputsNotDriven) ∨
    (s.driven = true ∧ (∃ reason, decode s.config.strictMode s.cmd = .error reason) ∧
      step s = .next (s.answer (.error .illegal))) ∨
    (s.driven = true ∧ ∃ i, decode s.config.strictMode s.cmd = .ok i ∧ step s = exec i s) := by
  unfold step
  cases hd : s.driven
  · simp
  · cases hc : decode s.config.strictMode s.cmd with
    | error e => exact .inr (.inl ⟨rfl, ⟨e, rfl⟩, by simp [State.fetch, hc, State.raise_eq]⟩)
    | ok i => exact .inr (.inr ⟨rfl, i, rfl, by simp [State.fetch, hc]⟩)

/-- If a step answers, its whole effect is one answer on the output ports. -/
theorem step_next {s t : State} (h : step s = .next t) :
    s.driven = true ∧ ∃ r, t = s.answer r := by
  obtain ⟨-, h1⟩ | ⟨hd, -, h1⟩ | ⟨hd, i, -, h1⟩ := step_cases s
  · simp [h1] at h
  · exact ⟨hd, _, by simpa [h1] using h.symm⟩
  · obtain ⟨r, hr⟩ := exec_answers i s
    exact ⟨hd, r, by simpa [h1, hr] using h.symm⟩

end Sys2Proof.Laws
end

