-- ==== Sys2Proof/Tests/Slice0.lean ====
section
/-! SUPPORT. Tests: expected values are those of `95_test_vectors.md` (section given at each test) or
are read off the rule named. After them, for each statement with hypotheses, a witness. -/

namespace Sys2Proof.Tests

-- One theorem after another: every check that runs beside others takes a thread and its stack.
set_option Elab.async false

open Sys2Proof.Machine Sys2Proof.Claims

def little : Config := { nativeOrder := .little, strictMode := false }
def big : Config := { nativeOrder := .big, strictMode := false }
def strict : Config := { nativeOrder := .little, strictMode := true }

/-- An instance with a command on its ports. -/
def host (g : Config) (cmd : CommandWord) (a : BusWord) (s : ShiftWord) : State :=
  (State.powerUp g).present { cmd, a, s }

/-- What the block answers. -/
def ask (g : Config) (cmd : CommandWord) (a : BusWord) (s : ShiftWord := 0) : Option Answer :=
  answerOf (step (host g cmd a s))

def y (n : BusWord) : Option Answer := some (.ok n)
def illegal : Option Answer := some (.error .illegal)
def precond : Option Answer := some (.error .precond)

/-- An outcome is the next state `t`; decidable, so that a witness can be evaluated. -/
def isNext (r : Host.Outcome State Fault Refusal) (t : State) : Bool :=
  match r with
  | .next u => u = t
  | .fault _ => false
  | .refused _ => false

theorem next_of_isNext {r : Host.Outcome State Fault Refusal} {t : State} (h : isNext r t = true) :
    r = .next t := by
  cases r <;> simp_all [isNext]

/-! ## Well-formedness -/

theorem test_bswap_refused_in_strict_mode : (Instr.bswap .w32).wellFormed true = false := by decide
theorem test_endconv_refused_in_strict_mode :
    (Instr.endconv .w8 .big .big).wellFormed true = false := by decide
theorem test_endeq_stays_in_strict_mode :
    (Instr.endeq .native .little).wellFormed true = true := by decide

theorem test_line_literal_too_wide :
    ({ op := .command (.clz .w8), operand := .literal 256, shift := 0 } : Line).wellFormed 0 =
      false := by decide
theorem test_line_result_not_earlier :
    ({ op := .command (.clz .w8), operand := .result 1, shift := 0 } : Line).wellFormed 0 = false ∧
    ({ op := .command (.clz .w8), operand := .result 0, shift := 0 } : Line).wellFormed 3 = false :=
  by decide
theorem test_line_shift_out_of_range :
    ({ op := .command (.rotl .w8), operand := .literal 1, shift := 2147483648 } : Line).wellFormed 0 =
      false := by decide
theorem test_line_shift_where_none :
    ({ op := .command (.clz .w8), operand := .literal 1, shift := 1 } : Line).wellFormed 0 = false :=
  by decide
theorem test_line_operand_of_endeq :
    ({ op := .command (.endeq .big .big), operand := .literal 1, shift := 0 } : Line).wellFormed 0 =
      false := by decide

/-! ## Decoding: words written out as `zzzzzz bb aa ww oooo` (`30_encoding.md` R39, R43) -/

theorem test_decode_clz : decode false 0b000000_00_00_11_0000 = .ok (.clz .w64) := by decide
theorem test_decode_ctz : decode false 0b000000_00_00_01_0001 = .ok (.ctz .w16) := by decide
theorem test_decode_popcnt : decode false 0b000000_00_00_10_0010 = .ok (.popcnt .w32) := by decide
theorem test_decode_rotl : decode false 0b000000_00_00_00_0011 = .ok (.rotl .w8) := by decide
theorem test_decode_rotr : decode false 0b000000_00_00_01_0100 = .ok (.rotr .w16) := by decide
theorem test_decode_bceil : decode false 0b000000_00_00_10_0101 = .ok (.bceil .w32) := by decide
theorem test_decode_bfloor : decode false 0b000000_00_00_11_0110 = .ok (.bfloor .w64) := by decide
theorem test_decode_bwidth : decode false 0b000000_00_00_00_0111 = .ok (.bwidth .w8) := by decide
theorem test_decode_bswap : decode false 0b000000_00_00_10_1000 = .ok (.bswap .w32) := by decide
theorem test_decode_endconv :
    decode false 0b000000_01_10_10_1001 = .ok (.endconv .w32 .native .big) := by decide
theorem test_decode_clo : decode false 0b000000_00_00_01_1010 = .ok (.clo .w16) := by decide
theorem test_decode_cto : decode false 0b000000_00_00_00_1011 = .ok (.cto .w8) := by decide
theorem test_decode_hsb : decode false 0b000000_00_00_11_1100 = .ok (.hsb .w64) := by decide
theorem test_decode_bitcast : decode false 0b000000_00_00_10_1101 = .ok (.bitcast .w32) := by decide
theorem test_decode_endeq :
    decode false 0b000000_00_10_00_1110 = .ok (.endeq .native .little) := by decide

/-- Section 3: the illegal words of the decode vectors. -/
theorem test_illegal_words :
    ([0x000F, 0x003F, 0x0400, 0x8000, 0xFFFF, 0x0040, 0x0100, 0x0243, 0x0048, 0x004D, 0x00C9,
      0x0309, 0x03CE, 0x001E, 0x00BE, 0x0045, 0x0405].any fun c => (decode false c).isOk) = false := by
  decide

/-- Section 3: strict mode. -/
theorem test_strict_words :
    ([0x0028, 0x01A9, 0x0009].any fun c => (decode true c).isOk) = false ∧
    ([0x008E, 0x0023, 0x000C].all fun c => (decode true c).isOk) = true := by decide

/-- Section 3: the 97 legal words, in its order. -/
theorem test_legal_words :
    ((List.range 0x0400).filter fun n => (decode false (BitVec.ofNat 16 n)).isOk) =
      ((List.range 15) ++ (List.range 14).map (0x10 + ·) ++ (List.range 14).map (0x20 + ·) ++
        (List.range 14).map (0x30 + ·)) ++
      [0x049, 0x04E, 0x059, 0x069, 0x079, 0x089, 0x08E, 0x099, 0x0A9, 0x0B9] ++
      [0x109, 0x10E, 0x119, 0x129, 0x139, 0x149, 0x14E, 0x159, 0x169, 0x179, 0x189, 0x18E, 0x199,
        0x1A9, 0x1B9] ++
      [0x209, 0x20E, 0x219, 0x229, 0x239, 0x249, 0x24E, 0x259, 0x269, 0x279, 0x289, 0x28E, 0x299,
        0x2A9, 0x2B9] := by decide +kernel

/-! ## Commands: the vectors of section 2 -/

theorem test_clz : ask little 0x0030 0x3FE9000000000000 = y 2 ∧
    ask little 0x0000 0xFFFFFFFFFFFFFF1C = y 3 := by decide +kernel
theorem test_clz_zero : ask little 0x0030 0 = y 64 ∧ ask little 0x0000 0xFF = y 0 := by
  decide +kernel
theorem test_clo : ask little 0x002A 0xDEADBEEF = y 2 ∧
    ask little 0x001A 0xFFFFFFFFFFFF7FFF = y 0 := by decide +kernel
theorem test_clo_ones : ask little 0x003A 0xFFFFFFFFFFFFFFFF = y 64 := by decide +kernel
theorem test_ctz : ask little 0x0031 0x3FE9000000000000 = y 48 ∧
    ask little 0x0011 0xDEADBEEF00010000 = y 16 := by decide +kernel
theorem test_cto : ask little 0x002B 0xDEADBEEF = y 4 ∧ ask little 0x001B 0x7FFF = y 15 := by
  decide +kernel
theorem test_popcnt : ask little 0x0022 0xDEADBEEF = y 24 ∧
    ask little 0x0002 0xFFFFFFFFFFFFFF00 = y 0 := by decide +kernel
theorem test_hsb : ask little 0x000C 0x80 = y 1 ∧ ask little 0x000C 0x81 = y 0 := by decide +kernel
theorem test_hsb_upper_bits : ask little 0x000C 0x100 = y 0 := by decide +kernel
theorem test_bwidth : ask little 0x0037 0x0123456789ABCDEF = y 57 ∧ ask little 0x0007 0xFF = y 8 := by
  decide +kernel
theorem test_bwidth_zero : ask little 0x0007 0 = y 0 := by decide +kernel
theorem test_bceil : ask little 0x0035 0x7FFFFFFFFFFFFFFF = y 0x8000000000000000 ∧
    ask little 0x0005 0 = y 1 := by decide +kernel
theorem test_bceil_edge : ask little 0x0015 0x8000 = y 0x8000 ∧
    ask little 0x0015 0x8001 = precond := by decide +kernel
theorem test_bfloor : ask little 0x0036 0xFFFFFFFFFFFFFFFF = y 0x8000000000000000 ∧
    ask little 0x0016 0x1234 = y 0x1000 := by decide +kernel
theorem test_bfloor_zero : ask little 0x0006 0 = y 0 := by decide +kernel
theorem test_rotl : ask little 0x0033 0x0123456789ABCDEF 100 = y 0x9ABCDEF012345678 ∧
    ask little 0x0013 0x8001 0xFFFFFF9C = y 0x1800 := by decide +kernel
theorem test_rotl_extremes : ask little 0x0003 0x1D 0x7FFFFFFF = y 0x8E ∧
    ask little 0x0003 0xAAAAAAAAAAAAAA1D 4 = y 0xD1 := by decide +kernel
theorem test_rotr : ask little 0x0024 0x12345678 4 = y 0x81234567 ∧
    ask little 0x0014 0x8001 0xFFFFFFFF = y 0x0003 := by decide +kernel
theorem test_rotr_extremes : ask little 0x0004 0x1D 0x80000000 = y 0x1D ∧
    ask little 0x0034 1 100 = y 0x0000000010000000 := by decide +kernel
theorem test_bswap : ask little 0x0038 0x1122334455667788 = y 0x8877665544332211 ∧
    ask big 0x0018 0x1111111111111234 = y 0x3412 := by decide +kernel
theorem test_bswap_strict : ask strict 0x0028 0x12345678 = illegal := by decide +kernel
theorem test_bitcast : ask little 0x002D 0xCAFEF00D12345678 = y 0x12345678 := by decide +kernel
theorem test_bitcast_w64 : ask little 0x003D 0x3FE9000000000000 = y 0x3FE9000000000000 := by
  decide +kernel

/-- Section 2.6: the nine tag pairs at `w = 32`, NATIVE_ORDER little; `ta` runs first. -/
theorem test_endconv_little :
    [0x0029, 0x0069, 0x00A9, 0x0129, 0x0169, 0x01A9, 0x0229, 0x0269, 0x02A9].map
      (fun c => ask little c 0x12345678) =
    [y 0x12345678, y 0x78563412, y 0x12345678, y 0x78563412, y 0x12345678, y 0x78563412,
      y 0x12345678, y 0x78563412, y 0x12345678] := by decide +kernel

/-- The same with NATIVE_ORDER big. -/
theorem test_endconv_big :
    [0x0029, 0x0069, 0x00A9, 0x0129, 0x0169, 0x01A9, 0x0229, 0x0269, 0x02A9].map
      (fun c => ask big c 0x12345678) =
    [y 0x12345678, y 0x78563412, y 0x78563412, y 0x78563412, y 0x12345678, y 0x12345678,
      y 0x78563412, y 0x12345678, y 0x12345678] := by decide +kernel

/-- Section 2.6: the nine tag pairs of ENDEQ. -/
theorem test_endeq_little :
    [0x000E, 0x004E, 0x008E, 0x010E, 0x014E, 0x018E, 0x020E, 0x024E, 0x028E].map
      (fun c => ask little c 0xFFFFFFFFFFFFFFFF 0x12345678) =
    [y 1, y 0, y 1, y 0, y 1, y 0, y 1, y 0, y 1] := by decide +kernel
theorem test_endeq_big :
    [0x000E, 0x004E, 0x008E, 0x010E, 0x014E, 0x018E, 0x020E, 0x024E, 0x028E].map
      (fun c => ask big c 0) =
    [y 1, y 0, y 0, y 0, y 1, y 1, y 0, y 1, y 1] := by decide +kernel

/-- Section 3: the illegal word comes first (0x0045, 0x0405). -/
theorem test_legality_first : ask little 0x0045 0x81 = illegal ∧ ask little 0x0405 5 = illegal ∧
    ask little 0x0005 0x81 = precond := by decide +kernel

/-- R103: the codes on port `err`; `y` is usable under code 0 alone. -/
theorem test_err_port :
    ((host little 0x0000 0x1C 0).answer (.ok 3)).errPort = some 0 ∧
    ((host little 0x000F 0x1C 0).raise .illegal).errPort = some 1 ∧
    ((host little 0x0005 0x81 0).raise .precond).errPort = some 2 ∧
    ((host little 0x0005 0x81 0).raise .precond).yPort = none := by decide

/-- The host's two questions: the table's word decodes, and is what the next step runs. -/
theorem test_table_word : decodeTableWord 16 0x0009 = some (.endconv .w8 .little .little) ∧
    decodeTableWord 16 0x000F = none := by decide
theorem test_fetched_word :
    answerOf (step (State.reset.withFetchWord 16 0x0030)) = y 64 := by decide +kernel
theorem test_reset_has_no_transaction : step State.reset = .fault .inputsNotDriven := by rfl

/-! ## Scripts: section 4 -/

/-- The outcomes of a script of the given lines of text. -/
def outcomes (g : Config) (texts : List String) : Option (List Answer) :=
  (readScript texts).bind fun lines => (runScript (State.powerUp g) [] lines).map Prod.snd

/-- Script P3. -/
theorem test_script_rotation :
    outcomes little ["rotl.8 0x1D, 4", "popcnt.8 0x1D", "popcnt.8 %1", "rotr.8 %1, 4",
      "rotl.8 0x1D, -9", "rotr.8 %5, -9", "rotl.8 %5, 1", "clz.8 %1", "cto.8 %1"] =
    some [.ok 0xD1, .ok 4, .ok 4, .ok 0x1D, .ok 0x8E, .ok 0x1D, .ok 0x1D, .ok 0, .ok 1] := by
  decide +kernel

/-- Scripts P2a and P2b. -/
theorem test_script_round_trip :
    [little, big].map (fun g => outcomes g ["endeq native, little ; which order",
      "to_big_endian.32 0x12345678", "to_native_endian.32 %2, big", "to_little_endian.32 0x12345678",
      "to_native_endian.32 %4, little", "bswap.32 %2"]) =
    [some [.ok 1, .ok 0x78563412, .ok 0x12345678, .ok 0x12345678, .ok 0x12345678, .ok 0x12345678],
     some [.ok 0, .ok 0x12345678, .ok 0x12345678, .ok 0x78563412, .ok 0x12345678, .ok 0x78563412]] :=
  by decide +kernel

/-- Script P2a with STRICT_MODE = 1: line 3 names a result that does not exist. -/
theorem test_script_strict :
    outcomes strict ["endeq native, little", "to_big_endian.32 0x12345678"] =
      some [.ok 1, .error .illegal] ∧
    outcomes strict ["endeq native, little", "to_big_endian.32 0x12345678",
      "to_native_endian.32 %2, big"] = none := by decide +kernel

/-- Script P4: both errors, neither disturbing the lines around it. -/
theorem test_script_errors :
    (runScript (State.powerUp big) [] [
      { op := .command (.bceil .w8), operand := .literal 128, shift := 0 },
      { op := .command (.bceil .w8), operand := .literal 200, shift := 0 },
      { op := .command (.bceil .w16), operand := .literal 200, shift := 0 },
      { op := .raw 0x000F, operand := .literal 200, shift := 0 },
      { op := .raw 0x0045, operand := .literal 200, shift := 0 },
      { op := .command (.clz .w8), operand := .literal 200, shift := 0 }]).map Prod.snd =
    some [.ok 0x80, .error .precond, .ok 0x100, .error .illegal, .error .illegal, .ok 0] := by
  decide +kernel

/-- R54, R95: no tagless `to_native_endian`; ENDEQ takes no width; mnemonics are in lower case. -/
theorem test_text_refused :
    (["to_native_endian.32 1", "endeq.8 native, little", "CLZ.8 1", "clz.24 1", "clz.8 0b2",
      "rotl.8 1", "clz.8"].map fun text => readLine text.toList) = List.replicate 7 none := by
  decide +kernel

/-- Section 2.6: the named conversions, NATIVE_ORDER little and then big. -/
theorem test_pseudo_commands :
    [little, big].map (fun g => outcomes g ["to_big_endian.16 0x1234", "to_little_endian.16 0x1234",
      "to_big_endian.16 0x1234, little", "to_little_endian.64 0x0123456789ABCDEF, big",
      "as_big_endian.64 0x0123456789ABCDEF", "as_little_endian.64 0x0123456789ABCDEF",
      "as_native_endian.64 0x0123456789ABCDEF"]) =
    [some [.ok 0x3412, .ok 0x1234, .ok 0x3412, .ok 0xEFCDAB8967452301, .ok 0xEFCDAB8967452301,
      .ok 0x0123456789ABCDEF, .ok 0x0123456789ABCDEF],
     some [.ok 0x1234, .ok 0x3412, .ok 0x3412, .ok 0xEFCDAB8967452301, .ok 0x0123456789ABCDEF,
      .ok 0xEFCDAB8967452301, .ok 0x0123456789ABCDEF]] := by decide +kernel

/-! ## Witnesses: states and operands that meet the hypotheses of the statements -/

theorem witness_encodeThenDecode :
    (Instr.endconv .w64 .big .native).wellFormed false = true ∧
    (Instr.endeq .big .native).wellFormed true = true := by decide

theorem witness_decodeThenEncode :
    decode false 0x01A9 = .ok (.endconv .w32 .native .big) ∧
    decode true 0x003D = .ok (.bitcast .w64) := by decide

/-- One word for each of the six conditions of R49, both tags of each, and legal words beside them. -/
theorem witness_illegalWords :
    IllegalByRule false 0x0400 ∧ IllegalByRule false 0x000F ∧ IllegalByRule false 0x0040 ∧
    IllegalByRule false 0x0100 ∧ IllegalByRule false 0x00C9 ∧ IllegalByRule false 0x030E ∧
    IllegalByRule false 0x001E ∧ IllegalByRule true 0x0008 ∧ IllegalByRule true 0x02A9 ∧
    ¬IllegalByRule false 0x003D ∧ ¬IllegalByRule false 0x02B9 ∧ ¬IllegalByRule true 0x028E := by
  simp [IllegalByRule]

theorem witness_tableRows :
    decode false 0x0289 = .ok (.endconv .w8 .native .native) ∧
    decode false 0x0389 = .error .reservedTag ∧
    decode true 0x0289 = .error .disabledByStrictMode := by decide

theorem witness_fields :
    decode false 0x0129 = .ok (.endconv .w32 .little .big) ∧
    (Instr.endconv .w32 .little .big).width? = some .w32 ∧
    (Instr.endconv .w32 .little .big).tags? = some (.little, .big) ∧
    decode false 0x010E = .ok (.endeq .little .big) ∧
    (Instr.endeq .little .big).width? = none ∧
    decode false 0x0030 = .ok (.clz .w64) ∧ (Instr.clz .w64).tags? = none := by decide

theorem witness_stepRunsDecodedCommand :
    (host little 0x0030 1 0).driven = true ∧
    decode (host little 0x0030 1 0).config.strictMode (host little 0x0030 1 0).cmd =
      .ok (.clz .w64) := by decide

theorem witness_illegalWordAnswersIllegal :
    (host little 0x000F 1 0).driven = true ∧ IllegalByRule false (host little 0x000F 1 0).cmd ∧
    step (host little 0x000F 1 0) = .next (showsError (host little 0x000F 1 0) .illegal) ∧
    (showsError (host little 0x000F 1 0) .illegal).out = some (.error .illegal) := by
  refine ⟨rfl, ?_, rfl, rfl⟩
  unfold IllegalByRule; decide

/-- The least operand above the range at each end of the widths, and the greatest within. -/
theorem witness_precond :
    decode false (host little 0x0005 0x81 0).cmd = .ok (.bceil .w8) ∧
    2 ^ (Width.bits .w8 - 1) < low (host little 0x0005 0x81 0) .w8 ∧
    decode false (host little 0x0035 0x8000000000000001 0).cmd = .ok (.bceil .w64) ∧
    2 ^ (Width.bits .w64 - 1) < low (host little 0x0035 0x8000000000000001 0) .w64 ∧
    ask little 0x0005 0x81 = precond ∧ ask little 0x0035 0x8000000000000001 = precond ∧
    low (host little 0x0005 0x80 0) .w8 ≤ 2 ^ (Width.bits .w8 - 1) ∧ ask little 0x0005 0x80 = y 0x80 :=
  by decide +kernel

theorem witness_legalityFirst :
    (host little 0x0045 0x81 0).driven = true ∧ (host little 0x0045 0x81 0).cmd.toNat % 16 = 5 ∧
    (host little 0x0045 0x81 0).cmd.toNat / 64 ≠ 0 := by decide

theorem witness_nothingElseFails :
    (host little 0x0005 0x80 0).driven = true ∧
    decode false (host little 0x0005 0x80 0).cmd = .ok (.bceil .w8) ∧
    (∀ w, Instr.bceil .w8 = .bceil w →
      low (host little 0x0005 0x80 0) w ≤ 2 ^ (w.bits - 1)) ∧
    decode false (host little 0x0032 7 0).cmd = .ok (.popcnt .w64) ∧
    (∀ w, Instr.popcnt .w64 ≠ .bceil w) := by
  refine ⟨rfl, by decide, fun w h => ?_, by decide, nofun⟩
  cases h; decide

/-- Three lines that meet the hypotheses on a script, and a script that runs to its end. -/
def sampleLines : List Line :=
  [ { op := .command (.rotl .w8), operand := .literal 0x1D, shift := -9 },
    { op := .raw 0x000F, operand := .literal 0, shift := 0 },
    { op := .pseudo (.toBigEndian .w16), operand := .literal 0x1234, shift := 0 } ]

theorem witness_everyTransactionCompletes :
    ∀ (k : Nat) (l : Line), sampleLines[k]? = some l →
      l.wellFormed k = true ∧ ∃ v, l.operand = .literal v := by
  intro k l h
  match k with
  | 0 | 1 | 2 => cases h; exact ⟨by decide, _, rfl⟩
  | k + 3 => simp [sampleLines] at h

theorem witness_scriptRuns :
    ((runScript (State.powerUp little) [] sampleLines).map Prod.snd) =
      some [.ok 0x8E, .error .illegal, .ok 0x3412] ∧
    ((runScript (State.powerUp little) []
        [ { op := .command (.clz .w8), operand := .literal 28, shift := 0 },
          { op := .command (.popcnt .w8), operand := .result 1, shift := 0 } ]).map Prod.snd) =
      some [.ok 3, .ok 2] := by decide +kernel

/-- Two lines that are legal, the second with BCEIL's greatest operand; their end is good. -/
def safeLines : List Line :=
  [ { op := .command (.clz .w8), operand := .literal 28, shift := 0 },
    { op := .command (.bceil .w8), operand := .literal 128, shift := 0 } ]

theorem witness_scriptsInRange :
    (∀ (k : Nat) (l : Line), safeLines[k]? = some l → l.wellFormed k = true ∧
      ∃ v i, l.operand = .literal v ∧ decode false l.op.word = .ok i ∧
        ∀ w, i = .bceil w → v % 2 ^ w.bits ≤ 2 ^ (w.bits - 1)) ∧
    SafeScript (State.powerUp little) safeLines ∧
    (runScript (State.powerUp little) [] sampleLines).map (fun p => noLineRaised p.2) =
      some false := by
  refine ⟨fun k l h => ?_, ⟨_, [.ok 3, .ok 128], rfl, by decide⟩, by decide +kernel⟩
  match k with
  | 0 => cases h; exact ⟨by decide, 28, .clz .w8, rfl, rfl, nofun⟩
  | 1 =>
    cases h
    exact ⟨by decide, 128, .bceil .w8, rfl, rfl, fun w hw => by cases hw; decide⟩
  | k + 2 => simp [safeLines] at h

theorem witness_undriven : (State.powerUp little).driven = false ∧
    step (State.powerUp little) = .fault .inputsNotDriven := ⟨rfl, rfl⟩

/-- A command that answers, one that raises, and the step of each. -/
theorem witness_next :
    exec (.hsb .w8) (host little 0x000C 0x80 0) = .next (shows (host little 0x000C 0x80 0) 1) ∧
    step (host little 0x000C 0x80 0) = .next (shows (host little 0x000C 0x80 0) 1) ∧
    exec (.bceil .w8) (host little 0x0005 0xFF 0) =
      .next (showsError (host little 0x0005 0xFF 0) .precond) ∧
    step (host little 0x0005 0xFF 0) = .next (showsError (host little 0x0005 0xFF 0) .precond) ∧
    step (host little 0x004D 0 0) = .next (showsError (host little 0x004D 0 0) .illegal) := by
  refine ⟨?_, ?_, ?_, ?_, ?_⟩ <;> exact next_of_isNext (by decide +kernel)

/-- Two states with the same parameters and inputs that show different outputs. -/
theorem witness_functionOfInputs :
    let s := host little 0x0030 1 0
    let u := s.raise .illegal
    s.driven = true ∧ u.driven = true ∧ s.config = u.config ∧ s.cmd = u.cmd ∧ s.a = u.a ∧
    s.s = u.s ∧ s ≠ u := by decide

theorem witness_upperBits :
    (Instr.clz .w8).width? = some .w8 ∧
    (∀ j, j < Width.bits .w8 →
      (0xFFFFFFFFFFFFFF1C : BusWord).getLsbD j = (host little 0x0000 0x1C 0).a.getLsbD j) ∧
    (0xFFFFFFFFFFFFFF1C : BusWord) ≠ (host little 0x0000 0x1C 0).a := by
  refine ⟨rfl, ?_, by decide⟩
  show ∀ j, j < 8 → _
  decide

theorem witness_unusedPorts :
    (∀ w, Instr.bswap .w32 ≠ .rotl w) ∧ (∀ w, Instr.bswap .w32 ≠ .rotr w) :=
  ⟨nofun, nofun⟩

/-- Results at the edge of each kind: the count 64, a value of all ones, the truth value 1. -/
theorem witness_resultsInRange :
    exec (.clz .w64) (host little 0x0030 0 0) = .next (shows (host little 0x0030 0 0) 64) ∧
    exec (.bitcast .w8) (host little 0x000D 0xFFFF 0) =
      .next (shows (host little 0x000D 0xFFFF 0) 0xFF) ∧
    exec (.endeq .big .big) (host little 0x014E 0 0) = .next (shows (host little 0x014E 0 0) 1) := by
  refine ⟨?_, ?_, ?_⟩ <;> exact next_of_isNext (by decide +kernel)

/-- A state that shows a result meets the invariant, and so does one that shows nothing. -/
theorem witness_invariant :
    (let s := shows (host little 0x000C 0x80 0) 1
     OutputsFitInputs s ∧ Settled s ∧ step s = .next s) ∧
    OutputsFitInputs (host little 0x000C 0x80 0) ∧ Settled (host little 0x000C 0x80 0) := by
  have hs : step (shows (host little 0x000C 0x80 0) 1) =
      .next (shows (host little 0x000C 0x80 0) 1) := next_of_isNext (by decide +kernel)
  refine ⟨⟨fun r hr => ?_, fun _ => hs, hs⟩, fun r hr => ?_, fun h => ?_⟩
  · cases hr
    exact ⟨rfl, .hsb .w8, by decide, by decide⟩
  · cases hr
  · exact absurd rfl h

theorem witness_strictMode :
    decode false 0x003D = .ok (.bitcast .w64) ∧ (∀ w, Instr.bitcast .w64 ≠ .bswap w) ∧
    (∀ w t u, Instr.bitcast .w64 ≠ .endconv w t u) ∧
    (let s := host strict 0x01A9 0x12345678 0
     s.driven = true ∧ s.config.strictMode = true ∧ s.cmd = encode (Pseudo.toBigEndian .w32).expand) ∧
    (let s := host strict 0x0038 1 0
     s.driven = true ∧ s.config.strictMode = true ∧ s.cmd = encode (.bswap .w64)) :=
  ⟨by decide, nofun, nofun, by decide, by decide⟩

/-- R41: the field value of each width, the premise of every statement of a command's word. -/
theorem witness_widthFields :
    Width.bits .w8 = 8 * 2 ^ 0 ∧ Width.bits .w16 = 8 * 2 ^ 1 ∧ Width.bits .w32 = 8 * 2 ^ 2 ∧
    Width.bits .w64 = 8 * 2 ^ 3 := by decide

/-- Counts inside their range and at its end: `n < w` and `n = w`. -/
theorem witness_counts :
    AnswersNat (.clz .w8) (host little 0 0x1C 0) 3 ∧ AnswersNat (.clz .w8) (host little 0 0x100 0) 8 ∧
    AnswersNat (.ctz .w8) (host little 0 0x1C 0) 2 ∧ AnswersNat (.ctz .w8) (host little 0 0 0) 8 ∧
    AnswersNat (.clo .w8) (host little 0 0xE3 0) 3 ∧ AnswersNat (.clo .w8) (host little 0 0xFF 0) 8 ∧
    AnswersNat (.cto .w8) (host little 0 0xE3 0) 2 ∧ AnswersNat (.cto .w8) (host little 0 0xFF 0) 8 ∧
    AnswersNat (.popcnt .w8) (host little 0 0xFF 0) 8 ∧
    AnswersNat (.popcnt .w8) (host little 0 0 0) 0 := by
  refine ⟨?_, ?_, ?_, ?_, ?_, ?_, ?_, ?_, ?_, ?_⟩ <;> exact next_of_isNext (by decide +kernel)

theorem witness_countingLaws :
    0 < 8 ∧ (0x1C : BitVec 8) ≠ 0 ∧ (0 : BitVec 8) = 0 ∧ 8 < 16 ∧
    countTrailingZeros ((0x1C : BitVec 8).setWidth 16) = 2 ∧
    countTrailingZeros ((0 : BitVec 8).setWidth 16) = 16 := by decide +kernel

/-- 1, 2, 3 and the ends of the range meet the premises of the power-of-two statements. -/
theorem witness_powersOfTwo :
    low (host little 0 0 0) .w8 = 0 ∧ low (host little 0 1 0) .w8 ≠ 0 ∧
    AnswersNat (.hsb .w8) (host little 0 0x80 0) 1 ∧ AnswersNat (.hsb .w8) (host little 0 0x81 0) 0 ∧
    AnswersNat (.bwidth .w8) (host little 0 0 0) 0 ∧ AnswersNat (.bwidth .w8) (host little 0 0xFF 0) 8 ∧
    AnswersNat (.bceil .w8) (host little 0 0x80 0) 0x80 ∧
    AnswersNat (.bfloor .w8) (host little 0 0xFF 0) 0x80 := by
  refine ⟨rfl, by decide, ?_, ?_, ?_, ?_, ?_, ?_⟩ <;> exact next_of_isNext (by decide +kernel)

theorem witness_ceilClauses :
    low (host little 0 0x80 0) .w8 = 2 ^ (Width.bits .w8 - 1) ∧
    low (host little 0 0x181 0) .w8 = 2 ^ (Width.bits .w8 - 1) + 1 ∧
    low (host little 0 0x8000000000000000 0) .w64 = 2 ^ (Width.bits .w64 - 1) ∧
    low (host little 0 0x8000000000000001 0) .w64 = 2 ^ (Width.bits .w64 - 1) + 1 := by decide +kernel

/-- R76: an operand in range with one bit, one with more, and a doubling below the top bit. -/
theorem witness_relationship :
    (let s := host little 0 0x80 0
     low s .w8 ≠ 0 ∧ low s .w8 ≤ 2 ^ (Width.bits .w8 - 1) ∧ AnswersNat (.hsb .w8) s 1) ∧
    (let s := host little 0 0x7F 1
     low s .w8 ≠ 0 ∧ low s .w8 ≤ 2 ^ (Width.bits .w8 - 1) ∧ AnswersNat (.hsb .w8) s 0 ∧
     s.s = 1 ∧ low s .w8 < 2 ^ (Width.bits .w8 - 1)) :=
  ⟨⟨by decide, by decide, next_of_isNext (by decide +kernel)⟩,
    by decide, by decide, next_of_isNext (by decide +kernel), rfl, by decide⟩

theorem witness_powerOfTwoProperties :
    0 < 8 ∧ (0x80 : BitVec 8).toNat ≤ 2 ^ (8 - 1) ∧ (0x80 : BitVec 8) ≠ 0 ∧
    bitCeil? (0x80 : BitVec 8) = some 0x80 ∧ bitCeil? (0x81 : BitVec 8) = none ∧
    bitCeil? (0 : BitVec 8) = some 1 := by decide +kernel

/-- R81: 7 is the number below 8 congruent to -9, and 0 that to -8. -/
theorem witness_effectiveAmount :
    0 < 8 ∧ 7 < 8 ∧ (8 : Int) ∣ -9 - 7 ∧ effectiveAmount 8 (-9) = 7 ∧ effectiveAmount 8 (-8) = 0 ∧
    effectiveAmount 64 2147483647 = 63 := by decide

/-- R83: `n = 9` and `s = -9` add to a multiple of 8. -/
theorem witness_rotr :
    let s := host little 0x0004 0x8E 0xFFFFFFF7
    ((Width.bits .w8 : Nat) : Int) ∣ (9 : ShiftWord).toInt + s.s.toInt ∧
    Answers (.rotl .w8) (withS s 9) 0x1D ∧ Answers (.rotr .w8) s 0x1D :=
  ⟨by decide, next_of_isNext (by decide +kernel), next_of_isNext (by decide +kernel)⟩

theorem witness_lowShiftBits :
    (∀ j, j < 6 → (0x40 : ShiftWord).getLsbD j = (host little 3 1 0).s.getLsbD j) ∧
    (0x40 : ShiftWord) ≠ (host little 3 1 0).s := by decide

theorem witness_extremeShifts :
    (host little 3 1 0x80000000).s = 0x80000000 ∧ (host little 3 1 0x7FFFFFFF).s = 0x7FFFFFFF := by
  decide

/-- R90 at whole bytes, first and last byte of three. -/
theorem witness_byteReversal :
    8 ∣ 24 ∧ reverseBytes (0xAABBCC : BitVec 24) = 0xCCBBAA ∧
    byteOf (reverseBytes (0xAABBCC : BitVec 24)) 0 = 0xAA ∧
    byteOf (reverseBytes (0xAABBCC : BitVec 24)) 2 = 0xCC := by decide +kernel

/-- Tags that resolve alike and tags that do not, under both orders. -/
theorem witness_tagOrders :
    tagOrder (host little 0 0 0) .native = tagOrder (host little 0 0 0) .little ∧
    tagOrder (host little 0 0 0) .native ≠ tagOrder (host little 0 0 0) .big ∧
    tagOrder (host big 0 0 0) .native = tagOrder (host big 0 0 0) .big ∧
    tagOrder (host big 0 0 0) .native ≠ tagOrder (host big 0 0 0) .little ∧
    (host little 0 0 0).config.nativeOrder = .little ∧ (host big 0 0 0).config.nativeOrder = .big := by
  decide

/-- R96: each of its three reasons at one byte. -/
theorem witness_singleByte :
    (let s := host little 0x00C9 0 0
     s.driven = true ∧ s.cmd.toNat % 64 = 0x09 ∧ s.cmd.toNat / 64 % 4 = 3) ∧
    (let s := host little 0x0309 0 0
     s.driven = true ∧ s.cmd.toNat % 64 = 0x09 ∧ s.cmd.toNat / 256 % 4 = 3) ∧
    (let s := host strict 0x0009 0xA5 0
     s.driven = true ∧ s.cmd.toNat % 64 = 0x09 ∧ s.config.strictMode = true) := by decide

/-- R93: each reason that makes a word of ENDEQ illegal. -/
theorem witness_endeqWords :
    (let s := host little 0x00CE 0 0
     s.driven = true ∧ s.cmd.toNat % 16 = 14 ∧ s.cmd.toNat / 64 % 4 = 3) ∧
    (let s := host little 0x030E 0 0
     s.driven = true ∧ s.cmd.toNat % 16 = 14 ∧ s.cmd.toNat / 256 % 4 = 3) ∧
    (let s := host little 0x001E 0 0
     s.driven = true ∧ s.cmd.toNat % 16 = 14 ∧ s.cmd.toNat / 16 % 4 ≠ 0) := by decide

theorem witness_transactions :
    (host little 0 0 0).config = (State.powerUp little).config ∧
    List.Perm [({ cmd := 0, a := 1, s := 0 } : Command), { cmd := 1, a := 1, s := 0 }]
      [{ cmd := 1, a := 1, s := 0 }, { cmd := 0, a := 1, s := 0 }] :=
  ⟨rfl, .swap _ _ _⟩

end Sys2Proof.Tests
end

section
/-! SUPPORT. Which answers a command and a step can give, and what a step does not read; from these
the statements of `10_state.md`: the frame, the ranges of the results, the invariant of the ports,
and power-up. -/

namespace Sys2Proof.Proofs

open Sys2Proof.Machine Sys2Proof.Laws

/-! ### The ranges of the three kinds of result (`30_encoding.md` R48) -/

theorem value_toNat_lt {w : Nat} (v : BitVec w) : (v.setWidth 64).toNat < 2 ^ w := by
  rw [BitVec.toNat_setWidth]
  exact (Nat.mod_le _ _).trans_lt v.isLt

theorem count_toNat_lt {n w : Nat} (h : n ≤ w) : (BitVec.ofNat 64 n).toNat < w + 1 := by
  rw [BitVec.toNat_ofNat]
  exact Nat.lt_succ_of_le ((Nat.mod_le _ _).trans h)

theorem truth_toNat_lt (b : Bool) : (if b then 1 else 0 : BusWord).toNat < 2 := by
  cases b <;> decide

/-! ### The answers of a command -/

/-- What a command may answer, its word being legal: a result within its kind's range, or PRECOND if
it is BCEIL above its range; ILLEGAL is decided on the word alone (`60_exceptions.md` R108). -/
def AnswerFitsCommand (i : Instr) (s : State) : Answer → Prop
  | .ok y => y.toNat < resultBound i
  | .error .illegal => False
  | .error .precond => ∃ w, i = .bceil w ∧ 2 ^ (w.bits - 1) < s.a.toNat % 2 ^ w.bits

theorem bitCeil?_eq_none_iff {w : Nat} (x : BitVec w) :
    bitCeil? x = none ↔ 2 ^ (w - 1) < x.toNat := by
  rw [← Option.not_isSome_iff_eq_none, bitCeil?_isSome, decide_eq_true_iff, not_le]

/-- BCEIL answers a value within its width, and PRECOND exactly above its range. -/
theorem execBceil_answer_fits (w : Width) (s : State) :
    ∃ r, exec (.bceil w) s = .next (s.answer r) ∧ AnswerFitsCommand (.bceil w) s r := by
  cases h : bitCeil? (s.operand w) with
  | some v =>
    exact ⟨.ok (v.setWidth 64), by simp only [exec, execBceil, h, State.driveValue_eq],
      value_toNat_lt v⟩
  | none =>
    have hlt := (bitCeil?_eq_none_iff _).1 h
    rw [State.operand_toNat] at hlt
    exact ⟨.error .precond, by simp only [exec, execBceil, h, State.raise_eq], w, rfl, hlt⟩

/-- A command's whole effect is one answer, and that answer is one the command may give. -/
theorem exec_answer_fits (i : Instr) (s : State) :
    ∃ r, exec i s = .next (s.answer r) ∧ AnswerFitsCommand i s r := by
  cases i with
  | clz w => exact ⟨_, rfl, count_toNat_lt (countLeadingZeros_le _)⟩
  | ctz w => exact ⟨_, rfl, count_toNat_lt (countTrailingZeros_le _)⟩
  | popcnt w => exact ⟨_, rfl, count_toNat_lt (populationCount_le _)⟩
  | rotl w => exact ⟨_, rfl, value_toNat_lt _⟩
  | rotr w => exact ⟨_, rfl, value_toNat_lt _⟩
  | bceil w => exact execBceil_answer_fits w s
  | bfloor w => exact ⟨_, rfl, value_toNat_lt _⟩
  | bwidth w => exact ⟨_, rfl, count_toNat_lt (bitWidth_le _)⟩
  | bswap w => exact ⟨_, rfl, value_toNat_lt _⟩
  | endconv w source target => exact ⟨_, rfl, value_toNat_lt _⟩
  | clo w => exact ⟨_, rfl, count_toNat_lt (countLeadingOnes_le _)⟩
  | cto w => exact ⟨_, rfl, count_toNat_lt (countTrailingOnes_le _)⟩
  | hsb w => exact ⟨_, rfl, truth_toNat_lt _⟩
  | bitcast w => exact ⟨_, rfl, value_toNat_lt _⟩
  | endeq left right => exact ⟨_, rfl, truth_toNat_lt _⟩

/-- If a command answers `t`, then `t` is the state before with one fitting answer shown. -/
theorem exec_next_fits {i : Instr} {s t : State} (h : exec i s = .next t) :
    ∃ r, t = s.answer r ∧ AnswerFitsCommand i s r := by
  obtain ⟨r, hr, hfit⟩ := exec_answer_fits i s
  rw [hr] at h
  cases h
  exact ⟨r, rfl, hfit⟩

/-! ### The answers of a step -/

/-- What the command on the ports may answer fits the ports. -/
theorem answerFitsInputs_of_command {i : Instr} {s : State} {r : Answer}
    (hdec : decode s.config.strictMode s.cmd = .ok i) (h : AnswerFitsCommand i s r) :
    AnswerFitsInputs s r := by
  match r, h with
  | .ok y, h => exact ⟨i, hdec, h⟩
  | .error .precond, ⟨w, hi, hlt⟩ => exact ⟨w, hi ▸ hdec, hlt⟩

/-- Whether an answer fits the inputs does not depend on what the outputs show. -/
@[simp] theorem answerFitsInputs_answer (s : State) (r r' : Answer) :
    AnswerFitsInputs (s.answer r) r' ↔ AnswerFitsInputs s r' := Iff.rfl

/-- On driven inputs a step answers, and its answer fits the inputs. -/
theorem step_answer_fits {s : State} (hd : s.driven = true) :
    ∃ r, step s = .next (s.answer r) ∧ AnswerFitsInputs s r := by
  obtain ⟨hf, -⟩ | ⟨-, hill, hstep⟩ | ⟨-, i, hdec, hstep⟩ := step_cases s
  · simp [hd] at hf
  · exact ⟨_, hstep, hill⟩
  · obtain ⟨r, hr, hfit⟩ := exec_answer_fits i s
    exact ⟨r, hstep.trans hr, answerFitsInputs_of_command hdec hfit⟩

/-- The block is combinational (`10_state.md` R16): a step does not read the outputs. -/
@[simp] theorem step_answer (s : State) (r : Answer) : step (s.answer r) = step s := by
  simp [step, exec_after_answer, State.raise_eq]

/-- States with equal parameters and inputs are the same once the same answer is shown. -/
theorem answer_eq_answer {s u : State} (hconfig : s.config = u.config) (hcmd : s.cmd = u.cmd)
    (ha : s.a = u.a) (hs : s.s = u.s) (hd : s.driven = u.driven) (r : Answer) :
    s.answer r = u.answer r := by
  simp only [State.answer, hconfig, hcmd, ha, hs, hd]

/-! ### The invariant of the ports -/

/-- Outputs that show nothing meet the invariant of the ports. -/
theorem invariant_of_out_eq_none {s : State} (h : s.out = none) :
    OutputsFitInputs s ∧ Settled s :=
  ⟨fun r hr => by simp [h] at hr, fun hne => absurd h hne⟩

/-- Whatever a step answers meets the invariant of the ports. -/
theorem invariant_of_step {s t : State} (h : step s = .next t) :
    OutputsFitInputs t ∧ Settled t := by
  have hd := (step_next h).1
  obtain ⟨r, hr, hfit⟩ := step_answer_fits hd
  obtain rfl : s.answer r = t := by simpa [hr] using h
  refine ⟨fun r' hr' => ?_, fun _ => (step_answer s r).trans hr⟩
  obtain rfl : r = r' := by simpa using hr'
  exact ⟨hd, (answerFitsInputs_answer s r r).2 hfit⟩

/-- The host's act on `cmd` alone is a presented command. -/
theorem withFetchWord_eq_present (s : State) (nbits w : Nat) :
    s.withFetchWord nbits w =
      s.present { cmd := BitVec.ofNat 16 (w % 2 ^ nbits), a := s.a, s := s.s } := rfl

/-! ### The obligations -/

/-- Settles O21: the answer of a step fits the inputs and is what they give; an act of the host
blanks the outputs. -/
theorem stepsKeepOutputsFitInputs : Obligations.StepsKeepOutputsFitInputs :=
  ⟨fun _ _ _ h => invariant_of_step h,
    fun s c _ => invariant_of_out_eq_none (State.present_out s c),
    fun s nbits w _ => by
      rw [withFetchWord_eq_present]
      exact invariant_of_out_eq_none (State.present_out s _)⟩

/-- Settles O15: a command's whole effect is one answer on the output ports. -/
theorem commandFrame : Obligations.CommandFrame := by
  intro i s t h
  obtain ⟨r, rfl, -⟩ := exec_next_fits h
  simp

/-- Settles O17: with one and the same answer shown on both the two states are equal, and a step does
not read what is shown. -/
theorem outcomeIsFunctionOfInputs : Obligations.OutcomeIsFunctionOfInputs := by
  intro s u hsd hud hconfig hcmd ha hs
  have hans := answer_eq_answer hconfig hcmd ha hs (hsd.trans hud.symm)
  obtain ⟨r, hr, -⟩ := step_answer_fits hsd
  refine ⟨r, hr, ?_⟩
  calc step u = step (u.answer r) := (step_answer u r).symm
    _ = step (s.answer r) := by rw [hans r]
    _ = step s := step_answer s r
    _ = .next (s.answer r) := hr
    _ = .next (u.answer r) := by rw [hans r]

/-- Settles O20: by the kind of the command's result. -/
theorem resultsStayInRange : Obligations.ResultsStayInRange := by
  intro i s t y h hy
  obtain ⟨r, rfl, hfit⟩ := exec_next_fits h
  obtain rfl : r = .ok y := by simpa using hy
  exact hfit

/-- Settles O22: at power-up the outputs show nothing. -/
theorem powerUpOutputsFitInputs : Obligations.PowerUpOutputsFitInputs :=
  ⟨fun g => invariant_of_out_eq_none (State.powerUp_out g),
    invariant_of_out_eq_none (State.powerUp_out Config.unspecified)⟩

/-- Settles O58: a step writes the outputs alone, the host the inputs and the outputs. -/
theorem parametersNeverChange : Obligations.ParametersNeverChange := by
  refine ⟨fun s t h => ?_, State.present_config, fun s nbits w => ?_⟩
  · obtain ⟨-, r, rfl⟩ := step_next h
    exact State.answer_config s r
  · rw [withFetchWord_eq_present, State.present_config]

/-- Settles O59: each clause is the value `State.powerUp` gives the field, and a step that finds the
inputs not driven stops. -/
theorem powerUpShowsNothing : Obligations.PowerUpShowsNothing := by
  refine ⟨fun g => ⟨State.powerUp_config g, State.powerUp_out g, ?_, ?_, ?_⟩, rfl,
    State.powerUp_out _⟩
  · simp [State.errPort]
  · simp [State.yPort]
  · simp [step]

end Sys2Proof.Proofs
end

section
/-! SUPPORT. What a run of transactions depends on; from it the statements of `20_memory.md`: a
transaction repeated and transactions put in any order. -/

namespace Sys2Proof.Proofs

open Sys2Proof.Machine Sys2Proof.Laws

/-- A presented command overwrites every port, so nothing but the parameters is left of the state
before. -/
theorem present_eq_of_config_eq {s u : State} (h : s.config = u.config) (c : Command) :
    s.present c = u.present c := by
  simp only [State.present, h]

/-- A run's first outcome is that of its first command, and what follows is a run on an instance with
the same parameters. -/
theorem runCommands_cons (s : State) (c : Command) (rest : List Command) :
    ∃ t : State, t.config = s.config ∧
      runCommands s (c :: rest) = answerOf (step (s.present c)) :: runCommands t rest := by
  obtain ⟨r, hr, -⟩ := step_answer_fits (State.present_driven s c)
  exact ⟨(s.present c).answer r, rfl, by simp only [runCommands, hr, answerOf_next]⟩

/-- The outcomes of a run are those its commands have alone, on any instance with the same
parameters. -/
theorem runCommands_eq_map (u : State) (commands : List Command) :
    ∀ s : State, s.config = u.config →
      runCommands s commands = commands.map fun c => answerOf (step (u.present c)) := by
  induction commands with
  | nil => exact fun _ _ => rfl
  | cons c rest ih =>
    intro s hconfig
    obtain ⟨t, ht, hrun⟩ := runCommands_cons s c rest
    rw [hrun, ih t (ht.trans hconfig), present_eq_of_config_eq hconfig c, List.map_cons]

/-! ### The obligations -/

/-- Settles O16: a step's whole effect is one answer on the output ports, and a step does not read
them. -/
theorem stepIdempotentAndPure : Obligations.StepIdempotentAndPure := by
  intro s t h
  obtain ⟨-, r, rfl⟩ := step_next h
  have hagain : step (s.answer r) = .next (s.answer r) := (step_answer s r).trans h
  exact ⟨hagain, by simp⟩

/-- Settles O54: either run is its own list of commands mapped to their outcomes alone on the one
instance, and a map keeps permutations. -/
theorem transactionsIndependent : Obligations.TransactionsIndependent := by
  refine ⟨fun s u commands => runCommands_eq_map u commands s,
    fun s u first second hconfig hperm => ?_⟩
  rw [runCommands_eq_map u first s hconfig, runCommands_eq_map u second u rfl]
  exact hperm.map _

end Sys2Proof.Proofs
end

section
/-! SUPPORT. The encoder by its fields and the decoder by what it accepts; from these the statements
of `30_encoding.md`: the round trips, the illegal words, the opcode table and strict mode. -/

namespace Sys2Proof.Proofs

open Sys2Proof.Machine Sys2Proof.Claims Sys2Proof.Laws

/-! ### The word of a command, field by field (`30_encoding.md` R39) -/

/-- Field `wsel` of a command's word; 0 for a command without a width (R41). -/
def wselOf (i : Instr) : Nat := (i.width?.map fieldOfWidth).getD 0

/-- Field `ta` of a command's word; 0 for a command without tags (R42). -/
def taOf (i : Instr) : Nat := (i.tags?.map fun t => fieldOfTag t.1).getD 0

/-- Field `tb` of a command's word; 0 for a command without tags (R42). -/
def tbOf (i : Instr) : Nat := (i.tags?.map fun t => fieldOfTag t.2).getD 0

/-- The fields of `c` are those of the command `i`. -/
structure HasFieldsOf (c : CommandWord) (i : Instr) : Prop where
  op : c.field 3 0 = i.operation
  wsel : c.field 5 4 = wselOf i
  ta : c.field 7 6 = taOf i
  tb : c.field 9 8 = tbOf i
  zero : c.field 15 10 = 0

theorem operation_lt (i : Instr) : i.operation < 15 := by cases i <;> simp [Instr.operation]

theorem wselOf_lt (i : Instr) : wselOf i < 4 := by
  unfold wselOf
  cases i.width? with
  | none => decide
  | some w => exact fieldOfWidth_lt w

theorem taOf_lt (i : Instr) : taOf i < 3 := by
  unfold taOf
  cases i.tags? with
  | none => decide
  | some t => exact fieldOfTag_lt t.1

theorem tbOf_lt (i : Instr) : tbOf i < 3 := by
  unfold tbOf
  cases i.tags? with
  | none => decide
  | some t => exact fieldOfTag_lt t.2

/-- R53's sum fits the word. -/
theorem encode_toNat (i : Instr) :
    (encode i).toNat = i.operation + 16 * wselOf i + 64 * taOf i + 256 * tbOf i := by
  have hop := operation_lt i
  have hwsel := wselOf_lt i
  have hta := taOf_lt i
  have htb := tbOf_lt i
  exact Nat.mod_eq_of_lt (by omega :
    i.operation + 16 * wselOf i + 64 * taOf i + 256 * tbOf i < 2 ^ 16)

theorem encode_hasFieldsOf (i : Instr) : HasFieldsOf (encode i) i := by
  have hop := operation_lt i
  have hwsel := wselOf_lt i
  have hta := taOf_lt i
  have htb := tbOf_lt i
  have h := encode_toNat i
  constructor
  · rw [field_op]; omega
  · rw [field_wsel]; omega
  · rw [field_ta]; omega
  · rw [field_tb]; omega
  · rw [field_zero]; omega

/-- A word has a command's fields exactly when it is the command's encoding. -/
theorem hasFieldsOf_iff (c : CommandWord) (i : Instr) : HasFieldsOf c i ↔ encode i = c := by
  refine ⟨fun ⟨hop, hwsel, hta, htb, hzero⟩ => ?_, fun h => h ▸ encode_hasFieldsOf i⟩
  apply BitVec.eq_of_toNat_eq
  rw [encode_toNat, toNat_eq_fields c, hop, hwsel, hta, htb, hzero, Nat.mul_zero, Nat.add_zero]

/-! ### What each part of the decoder accepts (`30_encoding.md` R52) -/

theorem untaggedCommand_eq_some_iff (w : Width) (op : Nat) (i : Instr) :
    untaggedCommand w op = some i ↔ i.operation = op ∧ i.width? = some w ∧ i.tags? = none := by
  constructor
  · intro h
    unfold untaggedCommand at h
    split at h <;> cases h <;> exact ⟨rfl, rfl, rfl⟩
  · rintro ⟨rfl, hw, ht⟩
    cases i <;> cases hw <;> cases ht <;> rfl

theorem decodeUntagged_eq_ok_iff (strict : Bool) (op wsel ta tb : Nat) (i : Instr) :
    decodeUntagged strict op wsel ta tb = .ok i ↔
      ta = 0 ∧ tb = 0 ∧ untaggedCommand (widthOfField wsel) op = some i ∧
        i.wellFormed strict = true := by
  unfold decodeUntagged
  by_cases htags : ta ≠ 0 ∨ tb ≠ 0
  · have hnot : ¬ (ta = 0 ∧ tb = 0) := by omega
    simp [htags, ← and_assoc, hnot]
  · obtain ⟨rfl, rfl⟩ : ta = 0 ∧ tb = 0 := by omega
    cases untaggedCommand (widthOfField wsel) op with
    | none => simp
    | some j =>
      by_cases hji : j = i
      · subst hji
        cases hwf : j.wellFormed strict <;> simp [hwf]
      · cases hwf : j.wellFormed strict <;> simp [hwf, hji]

theorem decodeConversion_eq_ok_iff (strict : Bool) (wsel ta tb : Nat) (i : Instr) :
    decodeConversion strict wsel ta tb = .ok i ↔
      strict = false ∧ ∃ t u, ta = fieldOfTag t ∧ tb = fieldOfTag u ∧
        i = .endconv (widthOfField wsel) t u := by
  simp only [← tagOfField_eq_some, decodeConversion]
  cases tagOfField ta with
  | none => simp
  | some t =>
    cases tagOfField tb with
    | none => simp
    | some u => cases strict <;> simp [eq_comm]

theorem decodeTagEquality_eq_ok_iff (wsel ta tb : Nat) (i : Instr) :
    decodeTagEquality wsel ta tb = .ok i ↔
      wsel = 0 ∧ ∃ t u, ta = fieldOfTag t ∧ tb = fieldOfTag u ∧ i = .endeq t u := by
  simp only [← tagOfField_eq_some, decodeTagEquality]
  cases tagOfField ta with
  | none => simp
  | some t =>
    cases tagOfField tb with
    | none => simp
    | some u => by_cases h : wsel = 0 <;> simp [h, eq_comm]

/-! ### What the decoder accepts -/

section
variable (strict : Bool) {c : CommandWord}

theorem decode_of_field_zero_ne (hzero : c.field 15 10 ≠ 0) :
    decode strict c = .error .reservedField := by simp [decode, hzero]

theorem decode_of_op_fifteen (hzero : c.field 15 10 = 0) (hop : c.field 3 0 = 15) :
    decode strict c = .error .reservedOperation := by simp [decode, hzero, hop]

theorem decode_of_op_nine (hzero : c.field 15 10 = 0) (hop : c.field 3 0 = 9) :
    decode strict c = decodeConversion strict (c.field 5 4) (c.field 7 6) (c.field 9 8) := by
  simp [decode, hzero, hop]

theorem decode_of_op_fourteen (hzero : c.field 15 10 = 0) (hop : c.field 3 0 = 14) :
    decode strict c = decodeTagEquality (c.field 5 4) (c.field 7 6) (c.field 9 8) := by
  simp [decode, hzero, hop]

theorem decode_of_op_untagged (hzero : c.field 15 10 = 0) (h15 : c.field 3 0 ≠ 15)
    (h9 : c.field 3 0 ≠ 9) (h14 : c.field 3 0 ≠ 14) :
    decode strict c =
      decodeUntagged strict (c.field 3 0) (c.field 5 4) (c.field 7 6) (c.field 9 8) := by
  simp [decode, hzero, h15, h9, h14]

end

/-- A command that exists in the instance is what its fields decode to. -/
theorem decode_of_hasFieldsOf {strict : Bool} {c : CommandWord} {i : Instr}
    (h : HasFieldsOf c i) (hwf : i.wellFormed strict = true) : decode strict c = .ok i := by
  obtain ⟨hop, hwsel, hta, htb, hzero⟩ := h
  cases i with
  | endconv w t u =>
    rw [decode_of_op_nine strict hzero hop, decodeConversion_eq_ok_iff, hwsel]
    refine ⟨?_, t, u, hta, htb, ?_⟩
    · simpa [Instr.wellFormed, Instr.isConversion] using hwf
    · simp [wselOf, Instr.width?]
  | endeq t u =>
    rw [decode_of_op_fourteen strict hzero hop, decodeTagEquality_eq_ok_iff]
    exact ⟨hwsel, t, u, hta, htb, rfl⟩
  | _ =>
    rw [decode_of_op_untagged strict hzero (by simp [hop, Instr.operation])
      (by simp [hop, Instr.operation]) (by simp [hop, Instr.operation]),
      decodeUntagged_eq_ok_iff, untaggedCommand_eq_some_iff, hop, hwsel]
    exact ⟨hta, htb, ⟨rfl, by simp [wselOf, Instr.width?], rfl⟩, hwf⟩

/-- What a word decodes to has the word's fields and exists in the instance. -/
theorem hasFieldsOf_of_decode {strict : Bool} {c : CommandWord} {i : Instr}
    (h : decode strict c = .ok i) : HasFieldsOf c i ∧ i.wellFormed strict = true := by
  have hwsel : fieldOfWidth (widthOfField (c.field 5 4)) = c.field 5 4 :=
    fieldOfWidth_widthOfField _ (by rw [field_wsel]; omega)
  by_cases hzero : c.field 15 10 = 0
  case neg => simp [decode_of_field_zero_ne strict hzero] at h
  by_cases h15 : c.field 3 0 = 15
  case pos => simp [decode_of_op_fifteen strict hzero h15] at h
  by_cases h9 : c.field 3 0 = 9
  case pos =>
    rw [decode_of_op_nine strict hzero h9, decodeConversion_eq_ok_iff] at h
    obtain ⟨rfl, t, u, hta, htb, rfl⟩ := h
    exact ⟨⟨h9, hwsel.symm, hta, htb, hzero⟩, rfl⟩
  by_cases h14 : c.field 3 0 = 14
  case pos =>
    rw [decode_of_op_fourteen strict hzero h14, decodeTagEquality_eq_ok_iff] at h
    obtain ⟨hw, t, u, hta, htb, rfl⟩ := h
    exact ⟨⟨h14, hw, hta, htb, hzero⟩, by simp [Instr.wellFormed, Instr.isConversion]⟩
  rw [decode_of_op_untagged strict hzero h15 h9 h14, decodeUntagged_eq_ok_iff,
    untaggedCommand_eq_some_iff] at h
  obtain ⟨hta, htb, ⟨hop, hw, ht⟩, hwf⟩ := h
  refine ⟨⟨hop.symm, ?_, ?_, ?_, hzero⟩, hwf⟩
  · simp [wselOf, hw, hwsel]
  · simp [taOf, ht, hta]
  · simp [tbOf, ht, htb]

/-- The decoder accepts exactly the encodings of the commands that exist in the instance. -/
theorem decode_eq_ok_iff (strict : Bool) (c : CommandWord) (i : Instr) :
    decode strict c = .ok i ↔ encode i = c ∧ i.wellFormed strict = true := by
  rw [← hasFieldsOf_iff]
  exact ⟨hasFieldsOf_of_decode, fun ⟨hf, hwf⟩ => decode_of_hasFieldsOf hf hwf⟩

/-! ### The obligations: the round trips -/

/-- Settles O1: the fields of an encoding are those of its command, and the decoder reads nothing
else. -/
theorem encodeThenDecode : Obligations.EncodeThenDecode := fun strict i hwf =>
  (decode_eq_ok_iff strict (encode i) i).2 ⟨rfl, hwf⟩

/-- Without strict mode every command decodes back, so no two share a word. -/
theorem encode_injective : Function.Injective encode := by
  intro i j h
  have hi : decode false (encode i) = .ok i := encodeThenDecode false i rfl
  have hj : decode false (encode j) = .ok j := encodeThenDecode false j rfl
  rw [h, hj] at hi
  exact (Except.ok.inj hi).symm

/-- Settles O2: a word that decodes has the fields of its command, and a word is its fields. -/
theorem decodeThenEncode : Obligations.DecodeThenEncode := fun strict c i =>
  (decode_eq_ok_iff strict c i).1

/-! ### The illegal words (`30_encoding.md` R49) -/

theorem exists_fieldOfTag_eq_iff (n : Nat) : (∃ t, n = fieldOfTag t) ↔ n < 3 := by
  constructor
  · rintro ⟨t, rfl⟩
    exact fieldOfTag_lt t
  · intro h
    interval_cases n
    exacts [⟨.little, rfl⟩, ⟨.big, rfl⟩, ⟨.native, rfl⟩]

/-- The conversions by their operation numbers (R43, R50). -/
theorem isConversion_iff (i : Instr) :
    i.isConversion = true ↔ i.operation = 8 ∨ i.operation = 9 := by
  cases i <;> simp [Instr.isConversion, Instr.operation]

theorem wellFormed_iff (strict : Bool) (i : Instr) :
    i.wellFormed strict = true ↔ (strict = true → i.isConversion = false) := by
  cases strict <;> simp [Instr.wellFormed]

/-- Below the reserved operation number, only those of ENDCONV and ENDEQ have no command without
tags. -/
theorem untaggedCommand_eq_none_iff (w : Width) {op : Nat} (hop : op < 15) :
    untaggedCommand w op = none ↔ op = 9 ∨ op = 14 := by
  interval_cases op <;> simp [untaggedCommand]

theorem decodeConversion_accepts_iff (strict : Bool) (wsel ta tb : Nat) :
    (∃ i, decodeConversion strict wsel ta tb = .ok i) ↔ strict = false ∧ ta < 3 ∧ tb < 3 := by
  simp only [decodeConversion_eq_ok_iff, ← exists_fieldOfTag_eq_iff]
  constructor
  · rintro ⟨_, hs, t, u, hta, htb, -⟩
    exact ⟨hs, ⟨t, hta⟩, u, htb⟩
  · rintro ⟨hs, ⟨t, hta⟩, u, htb⟩
    exact ⟨_, hs, t, u, hta, htb, rfl⟩

theorem decodeTagEquality_accepts_iff (wsel ta tb : Nat) :
    (∃ i, decodeTagEquality wsel ta tb = .ok i) ↔ wsel = 0 ∧ ta < 3 ∧ tb < 3 := by
  simp only [decodeTagEquality_eq_ok_iff, ← exists_fieldOfTag_eq_iff]
  constructor
  · rintro ⟨_, hw, t, u, hta, htb, -⟩
    exact ⟨hw, ⟨t, hta⟩, u, htb⟩
  · rintro ⟨hw, ⟨t, hta⟩, u, htb⟩
    exact ⟨_, hw, t, u, hta, htb, rfl⟩

theorem decodeUntagged_accepts_iff (strict : Bool) {op : Nat} (wsel ta tb : Nat) (hop : op < 15)
    (h9 : op ≠ 9) (h14 : op ≠ 14) :
    (∃ i, decodeUntagged strict op wsel ta tb = .ok i) ↔
      ta = 0 ∧ tb = 0 ∧ (strict = true → op ≠ 8) := by
  obtain ⟨i, hi⟩ := Option.ne_none_iff_exists'.1
    (mt (untaggedCommand_eq_none_iff (widthOfField wsel) hop).1 (by omega))
  obtain ⟨rfl, -, -⟩ := (untaggedCommand_eq_some_iff ..).1 hi
  have hconv : i.isConversion = false ↔ i.operation ≠ 8 := by
    rw [← Bool.not_eq_true, isConversion_iff]
    omega
  simp only [decodeUntagged_eq_ok_iff, hi, Option.some.injEq, wellFormed_iff, exists_and_left,
    exists_eq_left', hconv]

/-- The six conditions on the fields as the decoder reads them. -/
theorem illegalByRule_iff (strict : Bool) (c : CommandWord) :
    IllegalByRule strict c ↔
      c.field 15 10 ≠ 0 ∨ c.field 3 0 = 15 ∨
      (c.field 3 0 ≠ 9 ∧ c.field 3 0 ≠ 14 ∧ (c.field 7 6 ≠ 0 ∨ c.field 9 8 ≠ 0)) ∨
      ((c.field 3 0 = 9 ∨ c.field 3 0 = 14) ∧ (c.field 7 6 = 3 ∨ c.field 9 8 = 3)) ∨
      (c.field 3 0 = 14 ∧ c.field 5 4 ≠ 0) ∨
      (strict = true ∧ (c.field 3 0 = 8 ∨ c.field 3 0 = 9)) := by
  have hzero : c.toNat / 1024 = c.field 15 10 := by
    rw [field_zero]
    omega
  simp only [IllegalByRule, field_op, field_wsel, field_ta, field_tb, hzero]

/-- The decoder accepts a word exactly when none of the six conditions holds. -/
theorem decode_accepts_iff (strict : Bool) (c : CommandWord) :
    (∃ i, decode strict c = .ok i) ↔ ¬ IllegalByRule strict c := by
  have hop : c.field 3 0 < 16 := by rw [field_op]; omega
  have hta : c.field 7 6 < 4 := by rw [field_ta]; omega
  have htb : c.field 9 8 < 4 := by rw [field_tb]; omega
  rw [illegalByRule_iff]
  by_cases h0 : c.field 15 10 = 0
  case neg => simp [decode_of_field_zero_ne strict h0, h0]
  by_cases h15 : c.field 3 0 = 15
  case pos => simp [decode_of_op_fifteen strict h0 h15, h15]
  by_cases h9 : c.field 3 0 = 9
  case pos =>
    rw [decode_of_op_nine strict h0 h9, decodeConversion_accepts_iff]
    cases strict
    · simp [h0, h9]
      omega
    · simp [h9]
  by_cases h14 : c.field 3 0 = 14
  case pos =>
    rw [decode_of_op_fourteen strict h0 h14, decodeTagEquality_accepts_iff]
    simp [h0, h14]
    omega
  rw [decode_of_op_untagged strict h0 h15 h9 h14,
    decodeUntagged_accepts_iff strict _ _ _ (by omega) h9 h14]
  cases strict
  · simp [h0, h15, h9, h14]
  · simp [h0, h15, h9, h14, and_assoc]

theorem exists_error_iff {ε α : Type} (x : Except ε α) :
    (∃ e, x = .error e) ↔ ¬ ∃ a, x = .ok a := by
  cases x <;> simp

theorem isOk_iff {ε α : Type} (x : Except ε α) : x.isOk = true ↔ ∃ a, x = .ok a := by
  cases x <;> simp [Except.isOk, Except.toBool]

/-- No word above `0x3FF` is legal, by condition 1 of R49. -/
theorem legal_count_eq (strict : Bool) :
    ((List.range 65536).countP fun n => (decode strict (BitVec.ofNat 16 n)).isOk) =
      (List.range 1024).countP fun n => (decode strict (BitVec.ofNat 16 n)).isOk := by
  rw [show 65536 = 1024 + 64512 from rfl, List.range_add, List.countP_append, Nat.add_eq_left,
    List.countP_eq_zero]
  intro n hn
  obtain ⟨m, hm, rfl⟩ := List.mem_map.1 hn
  rw [isOk_iff, decode_accepts_iff, not_not]
  refine .inl ?_
  have := List.mem_range.1 hm
  rw [BitVec.toNat_ofNat]
  omega

/-- Settles O3: the decoder is taken apart by operation number; a legal word is below `0x400`,
and there the legal words are counted. -/
theorem illegalWordsAreTheSixConditions : Obligations.IllegalWordsAreTheSixConditions := by
  refine ⟨fun strict c => ?_, ?_, ?_⟩
  · rw [exists_error_iff, decode_accepts_iff, not_not]
  · rw [legal_count_eq]
    decide +kernel
  · rw [legal_count_eq]
    decide +kernel

/-- Settles O5: a decoded word has the fields of its command. -/
theorem fieldsOfDecodedWords : Obligations.FieldsOfDecodedWords := by
  intro strict c i h
  obtain ⟨⟨hop, hwsel, hta, htb, hzero⟩, -⟩ := hasFieldsOf_of_decode h
  rw [field_op] at hop
  rw [field_wsel] at hwsel
  rw [field_ta] at hta
  rw [field_tb] at htb
  rw [field_zero] at hzero
  rw [hwsel, hta, htb]
  refine ⟨hop.symm, fun w hw => ?_, fun hw => ?_, fun t u ht => ?_, fun ht => ?_, by omega⟩
  · cases w <;> simp [wselOf, hw, fieldOfWidth, Width.bits]
  · simp [wselOf, hw]
  · cases t <;> cases u <;> simp [taOf, tbOf, ht, fieldOfTag, tagCode]
  · simp [taOf, tbOf, ht]

/-! ### The opcode table (`30_encoding.md` R56) -/

/-- A field of a masked word is the masked field. -/
theorem field_and (c m : CommandWord) (hi lo : Nat) :
    CommandWord.field (c &&& m) hi lo = c.field hi lo &&& m.field hi lo := by
  rw [CommandWord.field, BitVec.extractLsb_and, BitVec.toNat_and]
  rfl

/-- The row fixes the field `cmd[hi:lo]` to `v`. -/
def Fixes (row : OpcodeRow) (hi lo v : Nat) : Prop :=
  row.mask.field hi lo = 2 ^ (hi - lo + 1) - 1 ∧ row.pattern.field hi lo = v

theorem field_of_fixes {row : OpcodeRow} {hi lo v : Nat} {c : CommandWord}
    (hrow : Fixes row hi lo v) (hc : c &&& row.mask = row.pattern) : c.field hi lo = v := by
  obtain ⟨hmask, hpattern⟩ := hrow
  calc c.field hi lo = c.field hi lo % 2 ^ (hi - lo + 1) := by rw [field_eq, Nat.mod_mod]
    _ = c.field hi lo &&& row.mask.field hi lo := by rw [hmask, Nat.and_two_pow_sub_one_eq_mod]
    _ = v := by rw [← field_and, hc, hpattern]

/-- The operation number a row is for. -/
def rowOperation (row : OpcodeRow) : Nat := row.pattern.field 3 0

/-- The row fixes and asks of a word of its operation what R49 and R50 ask. -/
def RowFollowsRules (row : OpcodeRow) : Prop :=
  Fixes row 15 10 0 ∧ Fixes row 3 0 (rowOperation row) ∧ rowOperation row < 15 ∧
  (row.tagged = true ↔ rowOperation row = 9 ∨ rowOperation row = 14) ∧
  (row.tagged = false → Fixes row 7 6 0 ∧ Fixes row 9 8 0) ∧
  (rowOperation row = 14 → Fixes row 5 4 0) ∧
  (row.needsConversions = true ↔ rowOperation row = 8 ∨ rowOperation row = 9)

theorem rowFollowsRules_of_mem : ∀ row ∈ opcodeTable, RowFollowsRules row := by
  unfold RowFollowsRules Fixes rowOperation
  decide

theorem selects_iff (row : OpcodeRow) (strict : Bool) (c : CommandWord) :
    row.selects strict c = true ↔ c &&& row.mask = row.pattern ∧
      (row.tagged = true → c.field 7 6 ≠ 3 ∧ c.field 9 8 ≠ 3) ∧
      (strict = true → row.needsConversions = false) := by
  cases strict <;> cases ht : row.tagged <;> simp [OpcodeRow.selects, ht, and_assoc]

/-- A word that selects a row meets none of the six conditions. -/
theorem not_illegalByRule_of_selects {row : OpcodeRow} {strict : Bool} {c : CommandWord}
    (hrow : row ∈ opcodeTable) (h : row.selects strict c = true) : ¬ IllegalByRule strict c := by
  obtain ⟨hzero, hop, hlt, htagged, htags, hwsel, hconv⟩ := rowFollowsRules_of_mem row hrow
  obtain ⟨hmask, hthree, hstrict⟩ := (selects_iff row strict c).1 h
  have hop' := field_of_fixes hop hmask
  rw [illegalByRule_iff, hop', field_of_fixes hzero hmask]
  rintro (h0 | h15 | ⟨h9, h14, htag⟩ | ⟨hsome, htag⟩ | ⟨h14, hw⟩ | ⟨hs, hcv⟩)
  · exact h0 rfl
  · omega
  · have hnot : row.tagged = false := by
      rw [← Bool.not_eq_true, htagged]
      omega
    obtain ⟨hta, htb⟩ := htags hnot
    rw [field_of_fixes hta hmask, field_of_fixes htb hmask] at htag
    omega
  · have := hthree (htagged.2 hsome)
    omega
  · exact hw (field_of_fixes (hwsel h14) hmask)
  · exact Bool.false_ne_true ((hstrict hs).symm.trans (hconv.2 hcv))

/-- The row of a command's mnemonic, and no other, selects the command's word. -/
theorem rowMatch (i : Instr) : RowMatch.Statement i := by
  cases i with
  | clz w => exact RowMatch.clz w
  | ctz w => exact RowMatch.ctz w
  | popcnt w => exact RowMatch.popcnt w
  | rotl w => exact RowMatch.rotl w
  | rotr w => exact RowMatch.rotr w
  | bceil w => exact RowMatch.bceil w
  | bfloor w => exact RowMatch.bfloor w
  | bwidth w => exact RowMatch.bwidth w
  | bswap w => exact RowMatch.bswap w
  | endconv w source target => exact RowMatch.endconv w source target
  | clo w => exact RowMatch.clo w
  | cto w => exact RowMatch.cto w
  | hsb w => exact RowMatch.hsb w
  | bitcast w => exact RowMatch.bitcast w
  | endeq left right => exact RowMatch.endeq left right

/-- Without strict mode a row selects a command's word exactly when it carries its mnemonic. -/
theorem selects_encode_iff {row : OpcodeRow} (hrow : row ∈ opcodeTable) (i : Instr) :
    row.selects false (encode i) = true ↔ row.mnemonic = i.mnemonic := by
  rw [rowMatch i row hrow, decide_eq_true_iff]

theorem selects_of_selects_false {row : OpcodeRow} {c : CommandWord} {strict : Bool}
    (h : row.selects false c = true) (hconv : strict = true → row.needsConversions = false) :
    row.selects strict c = true := by
  obtain ⟨hmask, htags, -⟩ := (selects_iff row false c).1 h
  exact (selects_iff row strict c).2 ⟨hmask, htags, hconv⟩

theorem selects_false_of_selects {row : OpcodeRow} {c : CommandWord} {strict : Bool}
    (h : row.selects strict c = true) : row.selects false c = true := by
  obtain ⟨hmask, htags, -⟩ := (selects_iff row strict c).1 h
  exact (selects_iff row false c).2 ⟨hmask, htags, nofun⟩

theorem eq_of_mnemonic_eq : ∀ row ∈ opcodeTable, ∀ other ∈ opcodeTable,
    other.mnemonic = row.mnemonic → other = row := by decide

/-- Every command has its row, which strict mode removes exactly when it removes the command. -/
theorem exists_row (i : Instr) : ∃ row ∈ opcodeTable, row.mnemonic = i.mnemonic ∧
    row.needsConversions = i.isConversion := by
  cases i <;> simp [opcodeTable, untaggedRow, Instr.mnemonic, Instr.isConversion]

/-- Settles O4: a legal word is the encoding of its command, and the rows of the table match the
encodings by their mnemonics; a word that selects a row is not illegal. -/
theorem tableRowsSelectDecodedCommands : Obligations.TableRowsSelectDecodedCommands := by
  refine ⟨rfl, fun strict c => ⟨fun i h => ?_, fun reason h row hrow => ?_⟩⟩
  · obtain ⟨rfl, hwf⟩ := (decode_eq_ok_iff strict c i).1 h
    obtain ⟨row, hrow, hname, hconv⟩ := exists_row i
    refine ⟨row, hrow, hname, ?_, fun other hother hsel => ?_⟩
    · exact selects_of_selects_false ((selects_encode_iff hrow i).2 hname)
        (hconv ▸ (wellFormed_iff strict i).1 hwf)
    · have hother' := (selects_encode_iff hother i).1 (selects_false_of_selects hsel)
      exact eq_of_mnemonic_eq row hrow other hother (hother'.trans hname.symm)
  · by_contra hsel
    rw [Bool.not_eq_false] at hsel
    exact (exists_error_iff _).1 ⟨reason, h⟩
      ((decode_accepts_iff strict c).2 (not_illegalByRule_of_selects hrow hsel))

/-! ### Strict mode (`30_encoding.md` R50) -/

/-- A word of a conversion does not decode with STRICT_MODE = 1: the only command it encodes does
not exist there. -/
theorem decode_conversion_strict {i j : Instr} (hconv : i.isConversion = true) :
    decode true (encode i) ≠ .ok j := by
  intro h
  obtain ⟨hij, hwf⟩ := (decode_eq_ok_iff true (encode i) j).1 h
  obtain rfl := encode_injective hij
  simp [Instr.wellFormed, hconv] at hwf

theorem expand_isConversion (p : Pseudo) : p.expand.isConversion = true := by cases p <;> rfl

/-- With STRICT_MODE = 1 a conversion on the port answers ILLEGAL. -/
theorem step_conversion_strict {s : State} {i : Instr} (hd : s.driven = true)
    (hstrict : s.config.strictMode = true) (hconv : i.isConversion = true)
    (hcmd : s.cmd = encode i) : step s = .next (showsError s .illegal) := by
  obtain ⟨hf, -⟩ | ⟨-, -, hstep⟩ | ⟨-, j, hdec, -⟩ := step_cases s
  · simp [hd] at hf
  · exact hstep
  · rw [hstrict, hcmd] at hdec
    exact absurd hdec (decode_conversion_strict hconv)

/-- Settles O24: what a word decodes to depends on strict mode only through whether the command
exists there, and a conversion does not. -/
theorem strictModeDisablesConversions : Obligations.StrictModeDisablesConversions := by
  refine ⟨fun c i h hbswap hendconv => ?_, fun s i hd hstrict hi hcmd => ?_⟩
  · obtain ⟨hc, -⟩ := (decode_eq_ok_iff false c i).1 h
    refine (decode_eq_ok_iff true c i).2 ⟨hc, (wellFormed_iff true i).2 fun _ => ?_⟩
    cases i with
    | bswap w => exact absurd rfl (hbswap w)
    | endconv w t u => exact absurd rfl (hendconv w t u)
    | _ => rfl
  · refine step_conversion_strict hd hstrict ?_ hcmd
    obtain ⟨w, rfl⟩ | ⟨w, t, u, rfl⟩ | ⟨p, rfl⟩ := hi
    · rfl
    · rfl
    · exact expand_isConversion p

/-- Settles O6: the decoder evaluated on the seven words. -/
theorem specWordsDecode : Obligations.SpecWordsDecode := by
  unfold Obligations.SpecWordsDecode
  decide

/-- Settles O7: the reader and the encoder evaluated on the five lines. -/
theorem scriptExamplesEncode : Obligations.ScriptExamplesEncode := by
  unfold Obligations.ScriptExamplesEncode
  decide +kernel

/-- Settles O8: the inputs are driven and the word is legal, which leaves one of the three cases of
a step. -/
theorem stepRunsDecodedCommand : Obligations.StepRunsDecodedCommand := by
  intro s i hd hdec
  obtain ⟨hf, -⟩ | ⟨-, ⟨reason, hill⟩, -⟩ | ⟨-, j, hj, hstep⟩ := step_cases s
  · simp [hd] at hf
  · simp [hdec] at hill
  · obtain rfl : i = j := by simpa [hdec] using hj
    exact hstep

end Sys2Proof.Proofs
end

section
/-! SUPPORT. The ports a command reads and the lines of a script; from these the statements of
`30_encoding.md` R45, R46 and R53. -/

namespace Sys2Proof.Proofs

open Sys2Proof.Machine Sys2Proof.Claims Sys2Proof.Laws

/-! ### The ports a command reads (`30_encoding.md` R45, R46) -/

/-- A command's answer depends on the parameters, on the operand of its width if it has one, and on
the shift amount if it rotates. -/
theorem exec_same_answer (i : Instr) {s u : State} (hconfig : s.config = u.config)
    (hoperand : ∀ w, i.width? = some w → u.operand w = s.operand w)
    (hshift : ∀ w, i = .rotl w ∨ i = .rotr w → u.shiftAmount = s.shiftAmount) :
    ∃ r, exec i s = .next (s.answer r) ∧ exec i u = .next (u.answer r) := by
  cases i with
  | rotl w => exact ⟨_, rfl, by rw [exec, execRotl, hoperand w rfl, hshift w (.inl rfl)]; rfl⟩
  | rotr w => exact ⟨_, rfl, by rw [exec, execRotr, hoperand w rfl, hshift w (.inr rfl)]; rfl⟩
  | endconv w t v => exact ⟨_, rfl, by rw [exec, execEndconv, hoperand w rfl, hconfig]; rfl⟩
  | endeq t v => exact ⟨_, rfl, by rw [hconfig]; rfl⟩
  | bceil w =>
    simp only [exec, execBceil, hoperand w rfl]
    cases bitCeil? (s.operand w) with
    | none => exact ⟨_, rfl, rfl⟩
    | some v => exact ⟨_, rfl, rfl⟩
  | clz w | ctz w | popcnt w | bfloor w | bwidth w | bswap w | clo w | cto w | hsb w | bitcast w =>
    exact ⟨_, rfl, by rw [← hoperand w rfl]; rfl⟩

/-- Settles O18: a command of width `w` reads port `a` through the operand of width `w` alone. -/
theorem upperOperandBitsIgnored : Obligations.UpperOperandBitsIgnored := by
  intro i w s a hw hbits
  refine ⟨State.operand_toNat s w, exec_same_answer i rfl (fun v hv => ?_) fun _ _ => rfl⟩
  obtain rfl : w = v := by simpa [hw] using hv
  apply BitVec.eq_of_getLsbD_eq
  intro j hj
  rw [State.operand_getLsbD _ _ _ hj, State.operand_getLsbD _ _ _ hj]
  exact hbits j hj

/-- Settles O19: the operand does not depend on port `s`, and ENDEQ has no operand. -/
theorem unusedPortsIgnored : Obligations.UnusedPortsIgnored := by
  refine ⟨fun i s n hrotl hrotr => exec_same_answer i rfl (fun _ _ => rfl) fun w hw => ?_,
    fun t u s a => exec_same_answer _ rfl nofun nofun⟩
  obtain rfl | rfl := hw
  · exact absurd rfl (hrotl w)
  · exact absurd rfl (hrotr w)

/-! ### The lines of a script -/

/-- The command a line presents, and what its well-formedness says of it. -/
theorem command?_eq_some {l : Line} {answers : List Answer} {c : Command}
    (h : l.command? answers = some c) :
    l.wellFormed answers.length = true ∧ c.cmd = l.op.word ∧
      l.operandValue? answers = some c.a := by
  unfold Line.command? at h
  split at h
  case isFalse => cases h
  case isTrue hwf =>
    obtain ⟨a, ha, rfl⟩ := Option.map_eq_some_iff.1 h
    exact ⟨hwf, rfl, ha⟩

/-- A line that names `%n` takes the low bits of the result of line `n`, an earlier one. -/
theorem operandValue?_result {l : Line} {answers : List Answer} {a : BusWord} {n : Nat}
    (hop : l.operand = .result n) (h : l.operandValue? answers = some a) :
    ∃ y, answers[n - 1]? = some (.ok y) ∧ a.toNat = y.toNat % 2 ^ l.op.operandBits := by
  simp only [Line.operandValue?, hop] at h
  split at h
  case h_1 y hy =>
    obtain rfl : _ = a := by simpa using h
    refine ⟨y, hy, ?_⟩
    rw [BitVec.toNat_ofNat, Nat.mod_eq_of_lt ((Nat.mod_le _ _).trans_lt y.isLt)]
  all_goals cases h

theorem result_le_of_wellFormed {l : Line} {earlier n : Nat} (hop : l.operand = .result n)
    (h : l.wellFormed earlier = true) : n ≤ earlier := by
  simp [Line.wellFormed, hop] at h
  omega

/-- The first line of a script that runs is answered, and the rest runs on with that answer. -/
theorem runScript_cons {s t : State} {before answers : List Answer} {l : Line} {rest : List Line}
    (h : runScript s before (l :: rest) = some (t, answers)) :
    ∃ c r, l.command? before = some c ∧ answerOf (step (s.present c)) = some r ∧
      runScript ((s.present c).answer r) (before ++ [r]) rest = some (t, answers) := by
  simp only [runScript] at h
  cases hc : l.command? before with
  | none => simp [hc] at h
  | some c =>
    obtain ⟨r, hr, -⟩ := step_answer_fits (State.present_driven s c)
    exact ⟨c, r, rfl, by simp [hr], by simpa [hc, hr] using h⟩

/-- The outcomes collected before stay in front. -/
theorem before_isPrefix_of_runScript {t : State} {answers : List Answer} (lines : List Line) :
    ∀ {s : State} {before : List Answer},
      runScript s before lines = some (t, answers) → before <+: answers := by
  induction lines with
  | nil =>
    intro s before h
    cases h
    exact List.prefix_rfl
  | cons l rest ih =>
    intro s before h
    obtain ⟨c, r, -, -, hrest⟩ := runScript_cons h
    exact (List.prefix_append before [r]).trans (ih hrest)

/-- In a script that goes on after the outcomes `before`, each line presents its command given the
outcomes in front of its own, and its outcome is that of this command alone on any instance with the
same parameters. -/
theorem runScript_line {u t : State} {answers : List Answer} (lines : List Line) :
    ∀ {s : State} {before : List Answer}, s.config = u.config →
      runScript s before lines = some (t, answers) →
      ∀ {k : Nat} {l : Line}, lines[k]? = some l →
        ∃ c, l.command? (answers.take (before.length + k)) = some c ∧
          answers[before.length + k]? = answerOf (step (u.present c)) := by
  induction lines with
  | nil => intro s before _ _ k l hl; simp at hl
  | cons l rest ih =>
    intro s before hconfig h k l' hl
    obtain ⟨c, r, hc, hr, hrest⟩ := runScript_cons h
    cases k with
    | zero =>
      obtain rfl : l = l' := by simpa using hl
      obtain ⟨post, rfl⟩ := before_isPrefix_of_runScript rest hrest
      refine ⟨c, by simpa using hc, ?_⟩
      rw [← present_eq_of_config_eq hconfig, hr]
      simp
    | succ k =>
      have := ih (s := (s.present c).answer r) (before := before ++ [r]) hconfig hrest
        (k := k) (l := l') (by simpa using hl)
      simpa [Nat.add_assoc, Nat.add_comm 1] using this

/-- Settles O55: `runScript_line` from an empty list of outcomes, and the conditions under which a
line has a command. -/
theorem scriptLinesAnswerAlone : Obligations.ScriptLinesAnswerAlone := by
  intro s t lines answers h k l hl
  obtain ⟨c, hc, hanswer⟩ := runScript_line (u := s) lines rfl h hl
  simp only [List.length_nil, Nat.zero_add] at hc hanswer
  obtain ⟨hwf, hcmd, ha⟩ := command?_eq_some hc
  refine ⟨c, hc, hcmd, hanswer, fun n hop => ?_⟩
  obtain ⟨y, hy, hval⟩ := operandValue?_result hop ha
  have hn := result_le_of_wellFormed hop hwf
  refine ⟨y, ?_, hn.trans (List.length_take_le k answers), hval⟩
  rw [List.getElem?_take] at hy
  exact (Option.ite_none_right_eq_some.1 hy).2

end Sys2Proof.Proofs
end

section
/-! SUPPORT. The word of a command without tags, and an operand driven whole onto port `y` and read
back from port `a`; from these the statement of `40_reinterpret.md` R58. -/

namespace Sys2Proof.Proofs

open Sys2Proof.Machine Sys2Proof.Claims Sys2Proof.Laws

/-! ### The word of a command that has a width and no tags (`30_encoding.md` R39 to R43) -/

theorem bits_eq_fieldOfWidth (w : Width) : w.bits = 8 * 2 ^ fieldOfWidth w := by
  cases w <;> decide

/-- The code of a width is the `wsel` with `w = 8 · 2^wsel`. -/
theorem fieldOfWidth_eq_of_bits {w : Width} {wsel : Nat} (h : w.bits = 8 * 2 ^ wsel) :
    fieldOfWidth w = wsel := by
  rw [bits_eq_fieldOfWidth] at h
  exact Nat.pow_right_injective le_rfl (Nat.eq_of_mul_eq_mul_left (by decide) h)

/-- Of the four fields of its word only `op` and `wsel` are not 0. -/
theorem encodedAs_of_untagged {i : Width → Instr} {op : Nat} {w : Width}
    (hop : (i w).operation = op) (hwidth : (i w).width? = some w) (htags : (i w).tags? = none) :
    EncodedAs i op w := by
  intro wsel hbits
  have hwsel : wselOf (i w) = wsel := by
    rw [← fieldOfWidth_eq_of_bits hbits, wselOf, hwidth]
    rfl
  rw [encode_toNat, hop, hwsel, taOf, tbOf, htags]
  rfl

/-! ### The operand as a value on the 64-bit ports (`30_encoding.md` R46, R48) -/

/-- The operand as a value result is the low `w` bits of port `a` with zeros above. -/
theorem operand_value_toNat (s : State) (w : Width) :
    ((s.operand w).setWidth 64).toNat = low s w := by
  rw [BitVec.toNat_setWidth_of_le (Width.bits_le w), State.operand_toNat, low]

/-- A value result that comes back on port `a` is the operand of its width. -/
theorem operand_withA_value (s : State) {w : Width} (v : BitVec w.bits) :
    (withA s (v.setWidth 64)).operand w = v :=
  (BitVec.setWidth_setWidth_of_le v (Width.bits_le w)).trans v.setWidth_eq

/-! ### BITCAST (`40_reinterpret.md` R58) -/

/-- BITCAST drives its operand, zero-extended. -/
theorem bitcast_answers_operand (w : Width) (s : State) :
    Answers (.bitcast w) s ((s.operand w).setWidth 64) := rfl

/-- Settles O53: BITCAST answers its operand, and the answer on port `a` has the same operand. -/
theorem bitcastKeepsPattern : Obligations.BitcastKeepsPattern := by
  intro w s
  refine ⟨encodedAs_of_untagged rfl rfl rfl, _, bitcast_answers_operand w s,
    operand_value_toNat s w, ?_⟩
  have hback := bitcast_answers_operand w (withA s ((s.operand w).setWidth 64))
  rwa [operand_withA_value] at hback

end Sys2Proof.Proofs
end

section
/-! SUPPORT. The counts at a general width: the complement, the powers of two around an operand, the
set of the positions that hold a 1; from these the laws of `41_bit_counting.md` R68 and R69. -/

namespace Sys2Proof.Proofs

open Sys2Proof.Machine Sys2Proof.Laws

section

variable {w : Nat} (x : BitVec w)

/-! ### The complement (R68) -/

theorem getLsbD_not_eq_iff (b : Bool) {i : Nat} (h : i < w) :
    (~~~x).getLsbD i = b ↔ x.getLsbD i = !b := by
  simp [h, Bool.not_eq_eq_eq_not]

theorem leadingRun_not (b : Bool) {i : Nat} (h : i ≤ w) :
    leadingRun b (~~~x) i = leadingRun (!b) x i := by
  induction i with
  | zero => rfl
  | succ i ih =>
    simp only [leadingRun, getLsbD_not_eq_iff x b (show i < w by omega), ih (by omega)]

theorem trailingRun_not (b : Bool) {i left : Nat} (h : i + left ≤ w) :
    trailingRun b (~~~x) i left = trailingRun (!b) x i left := by
  induction left generalizing i with
  | zero => rfl
  | succ left ih =>
    simp only [trailingRun, getLsbD_not_eq_iff x b (show i < w by omega),
      ih (i := i + 1) (by omega)]

theorem countLeadingZeros_not : countLeadingZeros (~~~x) = countLeadingOnes x :=
  leadingRun_not x false le_rfl

theorem countLeadingOnes_not : countLeadingOnes (~~~x) = countLeadingZeros x :=
  leadingRun_not x true le_rfl

theorem countTrailingZeros_not : countTrailingZeros (~~~x) = countTrailingOnes x :=
  trailingRun_not x false (Nat.zero_add w).le

theorem countTrailingOnes_not : countTrailingOnes (~~~x) = countTrailingZeros x :=
  trailingRun_not x true (Nat.zero_add w).le

/-! ### The runs of the whole operand -/

/-- The upward loop from bit 0 over all `w` bits. -/
theorem trailingRun_zero_iff (b : Bool) (n : Nat) :
    trailingRun b x 0 w = n ↔
      n ≤ w ∧ (∀ j, j < n → x.getLsbD j = b) ∧ (n < w → x.getLsbD n = !b) := by
  simpa using trailingRun_iff b x w 0 n

/-- Bit `i-1` ends one of the two downward loops at once (R69, item 4). -/
theorem leadingRun_eq_zero_or (i : Nat) : leadingRun false x i = 0 ∨ leadingRun true x i = 0 := by
  cases i with
  | zero => exact .inl rfl
  | succ i => cases hb : x.getLsbD i <;> simp [leadingRun, hb]

/-- Bit `i` ends one of the two upward loops at once (R69, item 4). -/
theorem trailingRun_eq_zero_or (i left : Nat) :
    trailingRun false x i left = 0 ∨ trailingRun true x i left = 0 := by
  cases left with
  | zero => exact .inl rfl
  | succ left => cases hb : x.getLsbD i <;> simp [trailingRun, hb]

@[simp] theorem countLeadingZeros_zero : countLeadingZeros (0#w) = w := by
  simp [countLeadingZeros_eq]

@[simp] theorem countTrailingZeros_zero : countTrailingZeros (0#w) = w :=
  (trailingRun_zero_iff 0 false w).2 ⟨le_rfl, by simp, by simp⟩

/-! ### The powers of two around a non-zero operand (R63, R65, R69 item 2) -/

/-- R63, closed form (c). -/
theorem bitWidth_eq_sub_countLeadingZeros : bitWidth x = w - countLeadingZeros x := by
  have hsize := size_le_width x
  rw [bitWidth_eq_size, countLeadingZeros_eq]
  omega

theorem two_pow_dvd_iff_testBit (m n : Nat) : 2 ^ n ∣ m ↔ ∀ j, j < n → m.testBit j = false := by
  rw [Nat.dvd_iff_mod_eq_zero]
  constructor
  · intro h j hj
    simpa [h, hj] using (Nat.testBit_mod_two_pow m n j).symm
  · intro h
    apply Nat.eq_of_testBit_eq
    intro j
    by_cases hj : j < n <;> simp [Nat.testBit_mod_two_pow, hj, h]

theorem countTrailingZeros_lt {x : BitVec w} (hx : x ≠ 0) : countTrailingZeros x < w := by
  obtain ⟨hle, hbelow, -⟩ := (trailingRun_zero_iff x false (countTrailingZeros x)).1 rfl
  refine hle.lt_of_ne fun heq => hx (BitVec.eq_of_getLsbD_eq fun j hj => ?_)
  simpa using hbelow j (hj.trans_eq heq.symm)

/-- R65, closed form (b): the powers of two that divide `x` are those up to its count of trailing
zeros. -/
theorem two_pow_dvd_iff_le_countTrailingZeros {x : BitVec w} (hx : x ≠ 0) (k : Nat) :
    2 ^ k ∣ x.toNat ↔ k ≤ countTrailingZeros x := by
  obtain ⟨-, hbelow, hat⟩ := (trailingRun_zero_iff x false (countTrailingZeros x)).1 rfl
  rw [two_pow_dvd_iff_testBit]
  refine ⟨fun h => ?_, fun h j hj => hbelow j (hj.trans_le h)⟩
  by_contra hlt
  have hone := hat (countTrailingZeros_lt hx)
  have hzero := h _ (not_le.1 hlt)
  simp [BitVec.testBit_toNat, hone] at hzero

/-- The lowest 1 of a non-zero operand is not above its highest. -/
theorem countTrailingZeros_lt_bitWidth {x : BitVec w} (hx : x ≠ 0) :
    countTrailingZeros x < bitWidth x := by
  have hdvd := (two_pow_dvd_iff_le_countTrailingZeros hx _).2 le_rfl
  have hpos : 0 < x.toNat := BitVec.toNat_pos_of_ne_zero hx
  exact (Nat.pow_lt_pow_iff_right (by decide)).1
    ((Nat.le_of_dvd hpos hdvd).trans_lt (lt_two_pow_bitWidth x))

/-- The lowest 1 is the highest exactly in a power of two. -/
theorem bitWidth_eq_countTrailingZeros_succ_iff {x : BitVec w} (hx : x ≠ 0) :
    bitWidth x = countTrailingZeros x + 1 ↔ ∃ k, k < w ∧ x.toNat = 2 ^ k := by
  constructor
  · intro h
    refine ⟨_, countTrailingZeros_lt hx, ?_⟩
    have hle := two_pow_le_of_bitWidth x hx
    have hlt := lt_two_pow_bitWidth x
    obtain ⟨q, hq⟩ := (two_pow_dvd_iff_le_countTrailingZeros hx _).2 le_rfl
    rw [h, pow_succ, hq] at hlt
    rw [h, Nat.add_sub_cancel, hq] at hle
    have hq1 : q < 2 := Nat.lt_of_mul_lt_mul_left hlt
    have hq0 : q ≠ 0 := by
      rintro rfl
      simp at hle
    obtain rfl : q = 1 := by omega
    simpa using hq
  · rintro ⟨k, -, hk⟩
    have hiff : ∀ m, m ≤ k ↔ m ≤ countTrailingZeros x := fun m => by
      rw [← two_pow_dvd_iff_le_countTrailingZeros hx, hk, Nat.pow_dvd_pow_iff_le_right']
    have hctz : k = countTrailingZeros x := le_antisymm ((hiff _).1 le_rfl) ((hiff _).2 le_rfl)
    rw [bitWidth_eq_size, hk, Nat.size_pow, hctz]

/-! ### The set of the positions that hold a 1 (R67) -/

/-- The positions of the 1 bits of `x`. -/
def onePositions : Finset Nat := (Finset.range w).filter fun j => x.getLsbD j = true

@[simp] theorem mem_onePositions (j : Nat) : j ∈ onePositions x ↔ x.getLsbD j = true := by
  simpa [onePositions] using fun h => BitVec.lt_of_getLsbD h

theorem populationCount_eq_card : populationCount x = (onePositions x).card := by
  rw [populationCount, onesBelow_eq_countP, List.countP_eq_length_filter]
  exact congrArg List.length (List.filter_congr fun j _ => Bool.decide_eq_true.symm)

/-- R67, the closed form of the loop. -/
theorem onesBelow_eq_sum (i : Nat) :
    onesBelow x i = ((List.range i).map fun j => (x.getLsbD j).toNat).sum := by
  induction i with
  | zero => rfl
  | succ i ih => rw [List.sum_range_succ, ← ih, onesBelow]

theorem populationCount_add_not : populationCount x + populationCount (~~~x) = w := by
  have hnot : onePositions (~~~x) = (Finset.range w).filter fun j => ¬ x.getLsbD j = true := by
    ext j
    simp [BitVec.getLsbD_not]
  rw [populationCount_eq_card, populationCount_eq_card, hnot, onePositions,
    Finset.card_filter_add_card_filter_not, Finset.card_range]

/-- The ones lie between the trailing and the leading zeros. -/
theorem populationCount_le_between :
    populationCount x ≤ w - countLeadingZeros x - countTrailingZeros x := by
  obtain ⟨-, habove, -⟩ := (leadingRun_iff false x w (countLeadingZeros x)).1 rfl
  obtain ⟨-, hbelow, -⟩ := (trailingRun_zero_iff x false (countTrailingZeros x)).1 rfl
  have hsub : onePositions x ⊆ Finset.Ico (countTrailingZeros x) (w - countLeadingZeros x) := by
    intro j hj
    rw [mem_onePositions] at hj
    have hlow : ¬ j < countTrailingZeros x := fun h => by simp [hbelow j h] at hj
    have hhigh : ¬ w - countLeadingZeros x ≤ j := fun h => by
      simp [habove j h (BitVec.lt_of_getLsbD hj)] at hj
    rw [Finset.mem_Ico]
    omega
  rw [populationCount_eq_card]
  exact (Finset.card_le_card hsub).trans_eq (Nat.card_Ico _ _)

/-- The leading ones are ones. -/
theorem countLeadingOnes_le_populationCount : countLeadingOnes x ≤ populationCount x := by
  obtain ⟨hle, hones, -⟩ := (leadingRun_iff true x w (countLeadingOnes x)).1 rfl
  have hsub : Finset.Ico (w - countLeadingOnes x) w ⊆ onePositions x := fun j hj => by
    obtain ⟨hlow, hhigh⟩ := Finset.mem_Ico.1 hj
    exact (mem_onePositions x j).2 (hones j hlow hhigh)
  calc countLeadingOnes x = (Finset.Ico (w - countLeadingOnes x) w).card := by
        rw [Nat.card_Ico]; omega
    _ ≤ populationCount x := populationCount_eq_card x ▸ Finset.card_le_card hsub

/-- The trailing ones are ones. -/
theorem countTrailingOnes_le_populationCount : countTrailingOnes x ≤ populationCount x := by
  obtain ⟨-, hones, -⟩ := (trailingRun_zero_iff x true (countTrailingOnes x)).1 rfl
  have hsub : Finset.range (countTrailingOnes x) ⊆ onePositions x := fun j hj =>
    (mem_onePositions x j).2 (hones j (Finset.mem_range.1 hj))
  calc countTrailingOnes x = (Finset.range (countTrailingOnes x)).card := by rw [Finset.card_range]
    _ ≤ populationCount x := populationCount_eq_card x ▸ Finset.card_le_card hsub

/-- A rotation moves the positions of the ones around the width (R69, item 6). -/
theorem populationCount_rotateLeft (hw : 0 < w) (s : Int) :
    populationCount (rotateLeft x s) = populationCount x := by
  have hr := (effectiveAmount_spec hw s).1
  rw [populationCount_eq_card, populationCount_eq_card]
  refine (Finset.card_nbij' (fun i => (i + effectiveAmount w s) % w)
    (fun j => (j + (w - effectiveAmount w s)) % w) ?_ ?_ ?_ ?_).symm
  · intro i hi
    simp only [Finset.mem_coe, mem_onePositions] at hi ⊢
    rwa [rotateLeft_getLsbD x s i (BitVec.lt_of_getLsbD hi)]
  · intro j hj
    simp only [Finset.mem_coe, mem_onePositions] at hj ⊢
    rwa [← rotateLeft_getLsbD' x s j (BitVec.lt_of_getLsbD hj)]
  · intro i hi
    have hlt : i < w := BitVec.lt_of_getLsbD ((mem_onePositions x i).1 hi)
    simp [Nat.add_assoc, Nat.add_sub_cancel' hr.le, Nat.mod_eq_of_lt hlt]
  · intro j hj
    have hlt : j < w := BitVec.lt_of_getLsbD ((mem_onePositions _ j).1 hj)
    simp [Nat.add_assoc, Nat.sub_add_cancel hr.le, Nat.mod_eq_of_lt hlt]

/-! ### The counts across widths (R69, item 5) -/

section

variable {v : Nat}

theorem populationCount_setWidth (h : w ≤ v) :
    populationCount (x.setWidth v) = populationCount x := by
  have hsame : onePositions (x.setWidth v) = onePositions x := by
    ext j
    simpa [BitVec.getLsbD_setWidth] using fun hj => (BitVec.lt_of_getLsbD hj).trans_le h
  rw [populationCount_eq_card, populationCount_eq_card, hsame]

theorem countLeadingZeros_setWidth (h : w ≤ v) :
    countLeadingZeros (x.setWidth v) = countLeadingZeros x + (v - w) := by
  have hsize := size_le_width x
  rw [countLeadingZeros_eq, countLeadingZeros_eq, BitVec.toNat_setWidth_of_le h]
  omega

theorem countTrailingZeros_setWidth {x : BitVec w} (hx : x ≠ 0) (h : w ≤ v) :
    countTrailingZeros (x.setWidth v) = countTrailingZeros x := by
  have hlt := countTrailingZeros_lt hx
  obtain ⟨-, hbelow, hat⟩ := (trailingRun_zero_iff x false (countTrailingZeros x)).1 rfl
  refine (trailingRun_zero_iff (x.setWidth v) false _).2 ⟨by omega, fun j hj => ?_, fun hv => ?_⟩
  · simp [BitVec.getLsbD_setWidth, hbelow j hj]
  · simp [hv, hat hlt]

/-- The first 0 is found within `x` or just above it. -/
theorem countTrailingOnes_setWidth (h : w ≤ v) :
    countTrailingOnes (x.setWidth v) = countTrailingOnes x := by
  obtain ⟨hle, hbelow, hat⟩ := (trailingRun_zero_iff x true (countTrailingOnes x)).1 rfl
  refine (trailingRun_zero_iff (x.setWidth v) true _).2 ⟨by omega, fun j hj => ?_, fun _ => ?_⟩
  · simp [hbelow j hj, show j < v by omega]
  · have hzero : x.getLsbD (countTrailingOnes x) = false := by
      rcases hle.lt_or_eq with hlt | heq
      · exact hat hlt
      · exact BitVec.getLsbD_of_ge x _ heq.ge
    simp [BitVec.getLsbD_setWidth, hzero]

theorem countLeadingOnes_setWidth (h : w < v) : countLeadingOnes (x.setWidth v) = 0 := by
  have hzeros : countLeadingZeros (x.setWidth v) ≠ 0 := by
    rw [countLeadingZeros_setWidth x h.le]
    omega
  exact (leadingRun_eq_zero_or (x.setWidth v) v).resolve_left hzeros

end

end

/-! ### The obligations -/

/-- Settles O30: a run of ones in the complement is a run of zeros, bit by bit. -/
theorem complementSymmetry : Obligations.ComplementSymmetry := fun _ x =>
  ⟨(countLeadingZeros_not x).symm, (countLeadingOnes_not x).symm,
    (countTrailingZeros_not x).symm, (countTrailingOnes_not x).symm⟩

/-- Settles O31: by R63's closed form (c), item 2 compares the lowest 1 with the highest; the others
are the lemmas above. -/
theorem countingLaws : Obligations.CountingLaws := by
  intro w x hw
  have hclz := countLeadingZeros_le x
  have hwidth := bitWidth_eq_sub_countLeadingZeros x
  refine ⟨populationCount_add_not x, fun hx => ⟨?_, ?_⟩, ?_, fun _ => populationCount_le_between x,
    countLeadingOnes_le_populationCount x, countTrailingOnes_le_populationCount x,
    leadingRun_eq_zero_or x w, trailingRun_eq_zero_or x 0 w, fun v hv => ⟨?_, ?_, ?_, ?_, ?_⟩,
    populationCount_rotateLeft x hw⟩
  · have hlt := countTrailingZeros_lt_bitWidth hx
    omega
  · rw [← bitWidth_eq_countTrailingZeros_succ_iff hx]
    have hlt := countTrailingZeros_lt_bitWidth hx
    omega
  · rintro rfl
    exact ⟨countLeadingZeros_zero, countTrailingZeros_zero⟩
  · exact countLeadingZeros_setWidth x hv.le
  · exact fun hx => countTrailingZeros_setWidth hx hv.le
  · rintro rfl
    simp
  · exact countTrailingOnes_setWidth x hv.le
  · exact countLeadingOnes_setWidth x hv

end Sys2Proof.Proofs
end

section
/-! SUPPORT. The answers of the five bit-counting commands, read off port `a`; from these the
statements of `41_bit_counting.md` R63 to R67. -/

namespace Sys2Proof.Proofs

open Sys2Proof.Machine Sys2Proof.Claims Sys2Proof.Laws

/-! ### The count each command answers -/

section

variable (w : Width) (s : State)

theorem clz_answers_count : AnswersNat (.clz w) s (countLeadingZeros (s.operand w)) := rfl
theorem clo_answers_count : AnswersNat (.clo w) s (countLeadingOnes (s.operand w)) := rfl
theorem ctz_answers_count : AnswersNat (.ctz w) s (countTrailingZeros (s.operand w)) := rfl
theorem cto_answers_count : AnswersNat (.cto w) s (countTrailingOnes (s.operand w)) := rfl
theorem popcnt_answers_count : AnswersNat (.popcnt w) s (populationCount (s.operand w)) := rfl
theorem bwidth_answers_count : AnswersNat (.bwidth w) s (bitWidth (s.operand w)) := rfl

/-! ### The operand on port `a` -/

/-- The operand of the complemented port is the complement of the operand. -/
theorem operand_withA_not : (withA s (~~~s.a)).operand w = ~~~(s.operand w) :=
  BitVec.setWidth_not (Width.bits_le w)

/-- The operand as a number, on port `a` of width 64, is the operand zero-extended. -/
theorem operand_withA_low :
    (withA s (BitVec.ofNat 64 (low s w))).operand .w64 = (s.operand w).setWidth 64 := by
  rw [← operand_value_toNat s w, BitVec.ofNat_toNat, BitVec.setWidth_eq]
  exact BitVec.setWidth_eq _

theorem operand_eq_zero_iff : s.operand w = 0 ↔ low s w = 0 := by
  rw [← BitVec.toNat_inj, State.operand_toNat, low]
  simp

end

/-- What the downward loop over the operand says of port `a`. -/
theorem leadingRun_operand {b : Bool} {w : Width} {s : State} {n : Nat}
    (h : leadingRun b (s.operand w) w.bits = n) :
    n ≤ w.bits ∧ (∀ j, w.bits - n ≤ j → j < w.bits → s.a.getLsbD j = b) ∧
      (n < w.bits → s.a.getLsbD (w.bits - 1 - n) = !b) := by
  obtain ⟨hle, habove, hat⟩ := (leadingRun_iff b (s.operand w) w.bits n).1 h
  refine ⟨hle, fun j hlow hhigh => ?_, fun hn => ?_⟩
  · rw [← State.operand_getLsbD s w j hhigh, habove j hlow hhigh]
  · rw [← State.operand_getLsbD s w _ (by omega), hat hn]

/-- What the upward loop over the operand says of port `a`. -/
theorem trailingRun_operand {b : Bool} {w : Width} {s : State} {n : Nat}
    (h : trailingRun b (s.operand w) 0 w.bits = n) :
    n ≤ w.bits ∧ (∀ j, j < n → s.a.getLsbD j = b) ∧ (n < w.bits → s.a.getLsbD n = !b) := by
  obtain ⟨hle, hbelow, hat⟩ := (trailingRun_zero_iff (s.operand w) b n).1 h
  refine ⟨hle, fun j hj => ?_, fun hn => ?_⟩
  · rw [← State.operand_getLsbD s w j (by omega), hbelow j hj]
  · rw [← State.operand_getLsbD s w n hn, hat hn]

/-! ### The obligations -/

/-- Settles O25: the run of zeros down from bit `w-1`; its closed forms are the bit width's. -/
theorem clzCountsLeadingZeros : Obligations.ClzCountsLeadingZeros := by
  intro w s
  obtain ⟨hle, habove, hat⟩ :=
    leadingRun_operand (rfl : _ = countLeadingZeros (s.operand w))
  have hwidth := bitWidth_eq_sub_countLeadingZeros (s.operand w)
  refine ⟨encodedAs_of_untagged rfl rfl rfl, _, hle, clz_answers_count w s, habove, hat, ?_, ?_, ?_⟩
  · rw [← hwidth, low, ← State.operand_toNat]
    exact lt_two_pow_bitWidth _
  · by_cases hzero : s.operand w = 0
    · exact .inl (hzero ▸ countLeadingZeros_zero)
    · refine .inr ?_
      rw [← hwidth, low, ← State.operand_toNat]
      exact two_pow_le_of_bitWidth _ hzero
  · rw [← hwidth]
    exact bwidth_answers_count w s

/-- Settles O26: the run of ones down from bit `w-1` is the run of zeros of the complement. -/
theorem cloCountsLeadingOnes : Obligations.CloCountsLeadingOnes := by
  intro w s
  obtain ⟨hle, habove, hat⟩ := leadingRun_operand (rfl : _ = countLeadingOnes (s.operand w))
  refine ⟨encodedAs_of_untagged rfl rfl rfl, _, hle, clo_answers_count w s, habove, hat, ?_⟩
  rw [← countLeadingZeros_not, ← operand_withA_not]
  exact clz_answers_count w _

/-- Settles O27: the run of zeros up from bit 0, and the powers of two that divide the operand. -/
theorem ctzCountsTrailingZeros : Obligations.CtzCountsTrailingZeros := by
  intro w s
  obtain ⟨hle, hbelow, hat⟩ := trailingRun_operand (rfl : _ = countTrailingZeros (s.operand w))
  refine ⟨encodedAs_of_untagged rfl rfl rfl, _, hle, ctz_answers_count w s, hbelow, hat,
    fun hlow => ?_⟩
  have hdvd := two_pow_dvd_iff_le_countTrailingZeros (mt (operand_eq_zero_iff w s).1 hlow)
  rw [low, ← State.operand_toNat, hdvd, hdvd]
  exact ⟨le_rfl, Nat.not_succ_le_self _⟩

/-- Settles O28: the run of ones up from bit 0 is the run of zeros of the complement. -/
theorem ctoCountsTrailingOnes : Obligations.CtoCountsTrailingOnes := by
  intro w s
  obtain ⟨hle, hbelow, hat⟩ := trailingRun_operand (rfl : _ = countTrailingOnes (s.operand w))
  refine ⟨encodedAs_of_untagged rfl rfl rfl, _, hle, cto_answers_count w s, hbelow, hat, ?_⟩
  rw [← countTrailingZeros_not, ← operand_withA_not]
  exact ctz_answers_count w _

/-- Settles O29: the loop is the sum of the bits, and zeros above the operand add nothing. -/
theorem popcntCountsOnes : Obligations.PopcntCountsOnes := by
  intro w s
  refine ⟨encodedAs_of_untagged rfl rfl rfl, _, populationCount_le (s.operand w),
    popcnt_answers_count w s, ?_, ?_⟩
  · rw [populationCount, onesBelow_eq_sum]
    congr 1
    refine List.map_congr_left fun j hj => ?_
    rw [State.operand_getLsbD s w j (List.mem_range.1 hj)]
  · rw [← populationCount_setWidth (s.operand w) (Width.bits_le w), ← operand_withA_low]
    exact popcnt_answers_count .w64 _

end Sys2Proof.Proofs
end

section
/-! SUPPORT. The power-of-two functions at a general width: the single bit, the bit width, the floor
and the ceiling in terms of the powers of two around the operand; from these the seven properties of
`42_power_of_two.md` R77. -/

namespace Sys2Proof.Proofs

open Sys2Proof.Machine Sys2Proof.Laws

section

variable {w : Nat} (x : BitVec w)

/-! ### The single bit (R72) -/

theorem hasSingleBit_iff_populationCount : hasSingleBit x = true ↔ populationCount x = 1 :=
  decide_eq_true_iff

/-- A value is `2 ^ k` exactly when bit `k` is its only 1. -/
theorem onePositions_eq_singleton_iff (k : Nat) : onePositions x = {k} ↔ x.toNat = 2 ^ k := by
  rw [Finset.ext_iff]
  constructor
  · intro h
    refine Nat.eq_of_testBit_eq fun j => ?_
    have hj := h j
    rw [mem_onePositions, Finset.mem_singleton] at hj
    rw [BitVec.testBit_toNat, Nat.testBit_two_pow, Bool.eq_iff_iff, hj, decide_eq_true_iff, eq_comm]
  · intro h j
    rw [mem_onePositions, Finset.mem_singleton, ← BitVec.testBit_toNat, h, Nat.testBit_two_pow,
      decide_eq_true_iff, eq_comm]

theorem hasSingleBit_iff_two_pow : hasSingleBit x = true ↔ ∃ k, k < w ∧ x.toNat = 2 ^ k := by
  rw [hasSingleBit_iff_populationCount, populationCount_eq_card, Finset.card_eq_one]
  constructor
  · rintro ⟨k, hk⟩
    have hbit : x.getLsbD k = true := (mem_onePositions x k).1 (by simp [hk])
    have hlt : k < w := BitVec.lt_of_getLsbD hbit
    exact ⟨k, hlt, (onePositions_eq_singleton_iff x k).1 hk⟩
  · rintro ⟨k, hlt, hk⟩
    exact ⟨k, (onePositions_eq_singleton_iff x k).2 hk⟩

@[simp] theorem hasSingleBit_zero : hasSingleBit (0#w) = false := by
  rw [Bool.eq_false_iff, ne_eq, hasSingleBit_iff_two_pow]
  rintro ⟨k, -, hk⟩
  exact (Nat.two_pow_pos k).ne hk

theorem ne_zero_of_hasSingleBit {x : BitVec w} (h : hasSingleBit x = true) : x ≠ 0 := by
  rintro rfl
  simp at h

/-- By item 2 of the laws of the counts (R69). -/
theorem hasSingleBit_iff_zeros_add_eq {x : BitVec w} (hw : 0 < w) (hx : x ≠ 0) :
    hasSingleBit x = true ↔ countLeadingZeros x + countTrailingZeros x = w - 1 := by
  obtain ⟨-, hzeros, -⟩ := countingLaws w x hw
  exact (hasSingleBit_iff_two_pow x).trans (hzeros hx).2.symm

/-! ### The bit width (R73) -/

/-- The powers of two above `x` are those from its bit width on. -/
theorem bitWidth_le_iff (n : Nat) : bitWidth x ≤ n ↔ x.toNat < 2 ^ n := by
  rw [bitWidth_eq_size, Nat.size_le]

theorem bitWidth_eq_zero_iff : bitWidth x = 0 ↔ x = 0 := by
  rw [bitWidth_eq_size, Nat.size_eq_zero, ← BitVec.toNat_inj]
  simp

theorem bitWidth_setWidth {v : Nat} (h : w ≤ v) : bitWidth (x.setWidth v) = bitWidth x := by
  rw [bitWidth_eq_size, bitWidth_eq_size, BitVec.toNat_setWidth_of_le h]

theorem bitWidth_eq_of_two_pow {k : Nat} (h : x.toNat = 2 ^ k) : bitWidth x = k + 1 := by
  rw [bitWidth_eq_size, h, Nat.size_pow]

theorem bitWidth_eq_log2 {x : BitVec w} (hx : x ≠ 0) : bitWidth x = 1 + Nat.log2 x.toNat := by
  have hpos := bitWidth_pos x hx
  have hlog : Nat.log2 x.toNat = bitWidth x - 1 := by
    rw [Nat.log2_eq_iff (BitVec.toNat_pos_of_ne_zero hx).ne', Nat.sub_add_cancel hpos]
    exact ⟨two_pow_le_of_bitWidth x hx, lt_two_pow_bitWidth x⟩
  omega

/-- The bracket of the bit width is met at its lower end by the powers of two alone. -/
theorem hasSingleBit_iff_toNat_eq {x : BitVec w} (hx : x ≠ 0) :
    hasSingleBit x = true ↔ x.toNat = 2 ^ (bitWidth x - 1) := by
  rw [hasSingleBit_iff_two_pow]
  constructor
  · rintro ⟨k, -, hk⟩
    rw [bitWidth_eq_of_two_pow x hk, hk, Nat.add_sub_cancel]
  · intro h
    have hpos := bitWidth_pos x hx
    have hle := bitWidth_le x
    exact ⟨_, by omega, h⟩

/-! ### The floor (R75) -/

@[simp] theorem bitFloor_zero : bitFloor (0#w) = 0#w := if_pos rfl

theorem bitFloor_le : (bitFloor x).toNat ≤ x.toNat := by
  by_cases hx : x = 0
  · simp [hx]
  · rw [bitFloor_toNat x hx]
    exact two_pow_le_of_bitWidth x hx

theorem lt_two_mul_bitFloor {x : BitVec w} (hx : x ≠ 0) : x.toNat < 2 * (bitFloor x).toNat := by
  rw [bitFloor_toNat x hx, ← pow_succ', Nat.sub_add_cancel (bitWidth_pos x hx)]
  exact lt_two_pow_bitWidth x

theorem hasSingleBit_bitFloor {x : BitVec w} (hx : x ≠ 0) : hasSingleBit (bitFloor x) = true := by
  have hpos := bitWidth_pos x hx
  have hle := bitWidth_le x
  exact (hasSingleBit_iff_two_pow _).2 ⟨_, by omega, bitFloor_toNat x hx⟩

/-- The non-zero operands the floor leaves unchanged are the powers of two. -/
theorem bitFloor_eq_self_iff {x : BitVec w} (hx : x ≠ 0) :
    bitFloor x = x ↔ hasSingleBit x = true := by
  rw [hasSingleBit_iff_toNat_eq hx, ← BitVec.toNat_inj, bitFloor_toNat x hx, eq_comm]

theorem bitFloor_bitFloor : bitFloor (bitFloor x) = bitFloor x := by
  by_cases hx : x = 0
  · simp [hx]
  · have hsingle := hasSingleBit_bitFloor hx
    exact (bitFloor_eq_self_iff (ne_zero_of_hasSingleBit hsingle)).2 hsingle

/-- The floor does not depend on the width beyond the operand. -/
theorem bitFloor_setWidth_toNat {v : Nat} (h : w ≤ v) :
    (bitFloor (x.setWidth v)).toNat = (bitFloor x).toNat := by
  by_cases hx : x = 0
  · simp [hx]
  · have hwide : x.setWidth v ≠ 0 := by
      rwa [ne_eq, ← bitWidth_eq_zero_iff, bitWidth_setWidth x h, bitWidth_eq_zero_iff]
    rw [bitFloor_toNat _ hwide, bitFloor_toNat _ hx, bitWidth_setWidth x h]

/-! ### The ceiling (R74) -/

/-- The powers of two not below `m` are those from the size of `m - 1` on. -/
theorem size_sub_one_le_iff (m j : Nat) : Nat.size (m - 1) ≤ j ↔ m ≤ 2 ^ j := by
  have hpos := Nat.two_pow_pos j
  rw [Nat.size_le]
  omega

/-- Within its range the ceiling is the least power of two not below the operand. -/
theorem bitCeil?_eq_least (hw : 0 < w) (h : x.toNat ≤ 2 ^ (w - 1)) :
    ∃ v k, bitCeil? x = some v ∧ v.toNat = 2 ^ k ∧ k < w ∧ ∀ j, k ≤ j ↔ x.toNat ≤ 2 ^ j := by
  obtain ⟨v, hceil, hv⟩ := bitCeil?_eq x hw h
  have hk := (size_sub_one_le_iff _ _).2 h
  exact ⟨v, _, hceil, hv, by omega, size_sub_one_le_iff _⟩

/-- A power of two is its own ceiling; every one below `2^w` is within the range. -/
theorem bitCeil?_of_hasSingleBit {x : BitVec w} (h : hasSingleBit x = true) :
    bitCeil? x = some x := by
  obtain ⟨i, hi, hx⟩ := (hasSingleBit_iff_two_pow x).1 h
  have hrange : x.toNat ≤ 2 ^ (w - 1) := hx ▸ Nat.pow_le_pow_right (by decide) (by omega)
  obtain ⟨v, k, hceil, hv, -, hleast⟩ := bitCeil?_eq_least x (by omega) hrange
  have hexp : ∀ j, k ≤ j ↔ i ≤ j := fun j => by
    rw [hleast, hx, Nat.pow_le_pow_iff_right (by decide)]
  obtain rfl : k = i := le_antisymm ((hexp i).2 le_rfl) ((hexp k).1 le_rfl)
  rw [hceil, BitVec.eq_of_toNat_eq (hv.trans hx.symm)]

/-- An operand strictly inside the bracket of its bit width has the upper end as its ceiling. -/
theorem bitCeil?_of_not_hasSingleBit {x : BitVec w} (hx : x ≠ 0) (hrange : x.toNat ≤ 2 ^ (w - 1))
    (h : hasSingleBit x = false) : ∃ v, bitCeil? x = some v ∧ v.toNat = 2 ^ bitWidth x := by
  have hpos := bitWidth_pos x hx
  have hw := bitWidth_le x
  obtain ⟨v, k, hceil, hv, -, hleast⟩ := bitCeil?_eq_least x (by omega) hrange
  have hle : k ≤ bitWidth x := (hleast _).2 (lt_two_pow_bitWidth x).le
  have hlt : ¬ k ≤ bitWidth x - 1 := fun hk =>
    Bool.eq_false_iff.1 h ((hasSingleBit_iff_toNat_eq hx).2
      (le_antisymm ((hleast _).1 hk) (two_pow_le_of_bitWidth x hx)))
  obtain rfl : k = bitWidth x := by omega
  exact ⟨v, hceil, hv⟩

/-- The least power of two not below `m` is below twice `m`: half of it is below `m`. -/
theorem two_pow_lt_two_mul_of_least {m k : Nat} (hm : 0 < m) (hleast : ∀ j, k ≤ j ↔ m ≤ 2 ^ j) :
    2 ^ k < 2 * m := by
  cases k with
  | zero => omega
  | succ k =>
    have hhalf := mt (hleast k).2 (Nat.not_succ_le_self k)
    rw [pow_succ]
    omega

end

/-! ### The obligations -/

/-- Settles O37: the bracket of the bit width gives the floor's items, the least power of two those
of the ceiling. -/
theorem powerOfTwoProperties : Obligations.PowerOfTwoProperties := by
  intro w x hw
  refine ⟨fun _ => hasSingleBit_iff_populationCount x, hasSingleBit_zero, bitFloor_le x,
    bitFloor_zero, bitWidth_eq_zero_iff x,
    fun hx => ⟨two_pow_le_of_bitWidth x hx, lt_two_pow_bitWidth x⟩,
    fun hx => ⟨lt_two_mul_bitFloor hx, hasSingleBit_bitFloor hx⟩, ⟨fun h => ?_, ?_⟩,
    bitFloor_bitFloor x, fun hrange => ?_⟩
  · have hx := ne_zero_of_hasSingleBit h
    exact ⟨(bitFloor_eq_self_iff hx).2 h, hx⟩
  · rintro ⟨h, hx⟩
    exact (bitFloor_eq_self_iff hx).1 h
  · obtain ⟨v, k, hceil, hv, hk, hleast⟩ := bitCeil?_eq_least x hw hrange
    have hsingle : hasSingleBit v = true := (hasSingleBit_iff_two_pow v).2 ⟨k, hk, hv⟩
    refine ⟨v, hceil, hv ▸ (hleast k).1 le_rfl, ⟨k, hk, hv⟩, fun hx => ⟨?_, fun h => ?_, ?_⟩,
      hsingle, hv ▸ Nat.pow_le_pow_right (by decide) (by omega), bitCeil?_of_hasSingleBit hsingle⟩
    · exact hv ▸ two_pow_lt_two_mul_of_least (BitVec.toNat_pos_of_ne_zero hx) hleast
    · exact Option.some.inj (hceil.symm.trans (bitCeil?_of_hasSingleBit h))
    · rintro rfl
      exact hsingle

end Sys2Proof.Proofs
end

section
/-! SUPPORT. The answers of HSB, BWIDTH, BCEIL and BFLOOR and how many operands BCEIL has a value
for; from these the statements of `42_power_of_two.md` R72 to R76 and R78. -/

namespace Sys2Proof.Proofs

open Sys2Proof.Machine Sys2Proof.Claims Sys2Proof.Laws

/-! ### The answers -/

/-- A value result as a number. -/
theorem answersNat_of_driveValue {i : Instr} {s : State} {w : Nat} {v : BitVec w}
    (h : exec i s = .next (s.driveValue v)) : AnswersNat i s v.toNat := by
  rw [AnswersNat, BitVec.ofNat_toNat]
  exact h

/-- Of the numbers up to a width, all of which port `y` tells apart, a command answers one. -/
theorem answersNat_iff_eq {i : Instr} {s : State} {w : Width} {m n : Nat} (h : AnswersNat i s m)
    (hm : m ≤ w.bits) (hn : n ≤ w.bits) : AnswersNat i s n ↔ n = m := by
  have hfits : ∀ k, k ≤ w.bits → k < 2 ^ 64 := fun k hk =>
    (hk.trans (Width.bits_le w)).trans_lt (by decide)
  refine ⟨fun h' => ?_, fun heq => heq ▸ h⟩
  have hy : BitVec.ofNat 64 n = BitVec.ofNat 64 m := by
    simpa [shows] using h'.symm.trans h
  rwa [← BitVec.toNat_inj, BitVec.toNat_ofNat, BitVec.toNat_ofNat, Nat.mod_eq_of_lt (hfits n hn),
    Nat.mod_eq_of_lt (hfits m hm)] at hy

section

variable (w : Width) (s : State)

theorem operand_toNat_eq_low : (s.operand w).toNat = low s w := State.operand_toNat s w

theorem hsb_answers_truth : AnswersNat (.hsb w) s (hasSingleBit (s.operand w)).toNat := by
  rw [AnswersNat, Answers, exec, execHsb, State.driveTruth_eq]
  cases hasSingleBit (s.operand w) <;> rfl

theorem bfloor_answers_value : AnswersNat (.bfloor w) s (bitFloor (s.operand w)).toNat :=
  answersNat_of_driveValue rfl

theorem rotl_answers_value :
    AnswersNat (.rotl w) s (rotateLeft (s.operand w) s.shiftAmount).toNat :=
  answersNat_of_driveValue rfl

theorem bceil_answers_value {v : BitVec w.bits} (h : bitCeil? (s.operand w) = some v) :
    AnswersNat (.bceil w) s v.toNat :=
  answersNat_of_driveValue (by simp only [exec, execBceil, h])

theorem bceil_raises_above_range (h : 2 ^ (w.bits - 1) < low s w) :
    exec (.bceil w) s = .next (showsError s .precond) := by
  rw [← operand_toNat_eq_low, ← bitCeil?_eq_none_iff] at h
  simp only [exec, execBceil, h]
  rfl

theorem hsb_answers_iff (b : Bool) :
    AnswersNat (.hsb w) s b.toNat ↔ hasSingleBit (s.operand w) = b := by
  have htruth : ∀ b' : Bool, b'.toNat ≤ w.bits := fun b' =>
    (Bool.toNat_le b').trans (Width.bits_pos w)
  rw [answersNat_iff_eq (hsb_answers_truth w s) (htruth _) (htruth b), eq_comm]
  exact (Bool.injective_iff.2 (by decide : false.toNat ≠ true.toNat)).eq_iff

end

/-! ### Doubling by rotation (R76) -/

theorem effectiveAmount_one {w : Nat} (hw : 1 < w) : effectiveAmount w 1 = 1 :=
  effectiveAmount_unique 1 1 hw (by simp)

/-- Below the top bit nothing comes round, so a rotation by one doubles. -/
theorem rotateLeft_one_toNat {w : Nat} {x : BitVec w} (hw : 1 < w) (hx : x.toNat < 2 ^ (w - 1)) :
    (rotateLeft x 1).toNat = 2 * x.toNat := by
  have hpow : 2 ^ w = 2 * 2 ^ (w - 1) := by rw [← pow_succ', Nat.sub_add_cancel hw.le]
  have hround : x >>> (w - 1) = 0#w :=
    BitVec.eq_of_toNat_eq (by simp [Nat.shiftRight_eq_div_pow, Nat.div_eq_of_lt hx])
  have hdouble : x.toNat * 2 % 2 ^ w = x.toNat * 2 := Nat.mod_eq_of_lt (by omega)
  simp [rotateLeft, effectiveAmount_one hw, hround, Nat.shiftLeft_eq, hdouble, Nat.mul_comm 2]

/-! ### How many operands BCEIL has a value for (R78) -/

/-- There are `m + 1` operands up to `m`. -/
theorem card_filter_toNat_le {w m : Nat} (h : m < 2 ^ w) :
    (Finset.univ.filter fun x : BitVec w => x.toNat ≤ m).card = m + 1 := by
  have himage : (Finset.univ.filter fun x : BitVec w => x.toNat ≤ m).image BitVec.toNat =
      Finset.range (m + 1) := by
    ext n
    simp only [Finset.mem_image, Finset.mem_filter, Finset.mem_univ, true_and, Finset.mem_range,
      Nat.lt_succ_iff]
    constructor
    · rintro ⟨x, hx, rfl⟩
      exact hx
    · intro hn
      have hx : (BitVec.ofNat w n).toNat = n := by
        rw [BitVec.toNat_ofNat, Nat.mod_eq_of_lt (hn.trans_lt h)]
      exact ⟨_, hx.le.trans hn, hx⟩
  rw [← Finset.card_range (m + 1), ← himage,
    Finset.card_image_of_injective _ BitVec.toNat_injective]

theorem card_bitCeil?_isSome {w : Nat} (hw : 0 < w) :
    (Finset.univ.filter fun x : BitVec w => (bitCeil? x).isSome).card = 2 ^ (w - 1) + 1 := by
  simp only [bitCeil?_isSome, decide_eq_true_iff]
  exact card_filter_toNat_le (Nat.pow_lt_pow_right (by decide) (by omega))

/-- The operands it raises for are the others of the `2^w`. -/
theorem card_bitCeil?_isNone {w : Nat} (hw : 0 < w) :
    (Finset.univ.filter fun x : BitVec w => (bitCeil? x).isNone).card = 2 ^ (w - 1) - 1 := by
  have hsome := card_bitCeil?_isSome hw
  have hsum := Finset.card_filter_add_card_filter_not (s := Finset.univ)
    fun x : BitVec w => (bitCeil? x).isSome = true
  have hall : (Finset.univ : Finset (BitVec w)).card = 2 ^ w := by
    rw [Finset.card_univ, ← FinEnum.card_eq_fintypeCard, FinEnum.card_bitVec]
  have hpow : 2 ^ w = 2 * 2 ^ (w - 1) := by rw [← pow_succ', Nat.sub_add_cancel hw]
  simp only [Bool.not_eq_true, Option.isSome_eq_false_iff, hall, hsome] at hsum
  omega

/-! ### The obligations -/

/-- Settles O32: an operand with a single 1 is a power of two; of the other forms one is the
library's, one is the count of ones, one compares the highest 1 with the lowest. -/
theorem hsbDetectsPowersOfTwo : Obligations.HsbDetectsPowersOfTwo := by
  intro w s
  have htwo := hasSingleBit_iff_two_pow (s.operand w)
  rw [operand_toNat_eq_low] at htwo
  refine ⟨encodedAs_of_untagged rfl rfl rfl, _, Bool.toNat_le _, hsb_answers_truth w s,
    ?_, ?_, ?_, ?_⟩ <;> rw [Bool.toNat_eq_one]
  · exact htwo
  · rw [Nat.ne_zero_and_sub_one_eq_zero_iff_isPowerOfTwo, htwo]
    refine ⟨fun ⟨k, _, hk⟩ => ⟨k, hk⟩, fun ⟨k, hk⟩ => ⟨k, ?_, hk⟩⟩
    have hlt : low s w < 2 ^ w.bits := Nat.mod_lt _ (Nat.two_pow_pos _)
    rwa [hk, Nat.pow_lt_pow_iff_right (by decide)] at hlt
  · rw [hasSingleBit_iff_populationCount, answersNat_iff_eq (popcnt_answers_count w s)
      (populationCount_le _) (Width.bits_pos w), eq_comm]
  · have hzeros := hasSingleBit_iff_zeros_add_eq (x := s.operand w) (Width.bits_pos w)
    constructor
    · intro h
      have hx := ne_zero_of_hasSingleBit h
      exact ⟨mt (operand_eq_zero_iff w s).2 hx, _, _, (hzeros hx).1 h, clz_answers_count w s,
        ctz_answers_count w s⟩
    · rintro ⟨hne, p, q, hsum, hp, hq⟩
      obtain rfl := (answersNat_iff_eq (w := w) (clz_answers_count w s) (countLeadingZeros_le _)
        (by omega)).1 hp
      obtain rfl := (answersNat_iff_eq (w := w) (ctz_answers_count w s) (countTrailingZeros_le _)
        (by omega)).1 hq
      exact (hzeros (mt (operand_eq_zero_iff w s).1 hne)).2 hsum

/-- Settles O33: the size of the operand as a number. -/
theorem bwidthMeasuresOperand : Obligations.BwidthMeasuresOperand := by
  intro w s
  have hzero := operand_eq_zero_iff w s
  refine ⟨encodedAs_of_untagged rfl rfl rfl, _, bitWidth_le (s.operand w),
    bwidth_answers_count w s, ?_, fun m hm => ?_, ?_, fun hne => ?_, ?_, ?_⟩
  · exact operand_toNat_eq_low w s ▸ lt_two_pow_bitWidth _
  · rwa [bitWidth_le_iff, operand_toNat_eq_low]
  · rw [bitWidth_eq_zero_iff, hzero]
  · have hx := mt hzero.1 hne
    rw [← operand_toNat_eq_low]
    exact ⟨two_pow_le_of_bitWidth _ hx, bitWidth_eq_log2 hx⟩
  · exact ⟨_, countLeadingZeros_le _, clz_answers_count w s, bitWidth_eq_sub_countLeadingZeros _⟩
  · rw [← bitWidth_setWidth (s.operand w) (Width.bits_le w), ← operand_withA_low]
    exact bwidth_answers_count .w64 _

/-- Settles O34: the least power of two not below the operand, and no value above the range. -/
theorem bceilRoundsUpWithinRange : Obligations.BceilRoundsUpWithinRange := by
  intro w s
  refine ⟨encodedAs_of_untagged rfl rfl rfl, fun hrange => ?_, bceil_raises_above_range w s⟩
  rw [← operand_toNat_eq_low] at hrange ⊢
  obtain ⟨v, k, hceil, hv, hk, hleast⟩ := bitCeil?_eq_least _ (Width.bits_pos w) hrange
  exact ⟨k, hk, hv ▸ bceil_answers_value w s hceil, (hleast k).1 le_rfl, fun j => (hleast j).2⟩

/-- Settles O35: the lower end of the bracket of the bit width. -/
theorem bfloorRoundsDown : Obligations.BfloorRoundsDown := by
  intro w s
  refine ⟨encodedAs_of_untagged rfl rfl rfl, fun hzero => ?_, fun hne => ?_⟩
  · have hfloor := bfloor_answers_value w s
    rw [(operand_eq_zero_iff w s).2 hzero] at hfloor
    simpa using hfloor
  · have hx := mt (operand_eq_zero_iff w s).1 hne
    have hpos := bitWidth_pos _ hx
    have hle := bitWidth_le (s.operand w)
    have hbelow := two_pow_le_of_bitWidth _ hx
    have habove := lt_two_pow_bitWidth (s.operand w)
    rw [operand_toNat_eq_low] at hbelow habove
    refine ⟨_, by omega, bitFloor_toNat _ hx ▸ bfloor_answers_value w s, hbelow, ?_, ?_, ?_⟩
    · rwa [Nat.sub_add_cancel hpos]
    · rw [Nat.sub_add_cancel hpos]
      exact bwidth_answers_count w s
    · rw [← bitFloor_toNat _ hx, ← bitFloor_setWidth_toNat (s.operand w) (Width.bits_le w),
        ← operand_withA_low]
      exact bfloor_answers_value .w64 _

/-- Settles O36: a power of two is its own ceiling; any other operand lies strictly between the ends
of the bracket of its bit width. -/
theorem ceilFloorRelationship : Obligations.CeilFloorRelationship := by
  intro w s
  refine ⟨fun hne => ?_, fun hs hlow => ?_⟩
  · have hx := mt (operand_eq_zero_iff w s).1 hne
    refine ⟨_, bitWidth_pos _ hx, bitWidth_le _, bwidth_answers_count w s,
      bitFloor_toNat _ hx ▸ bfloor_answers_value w s, fun hrange => ⟨fun h => ?_, fun h => ?_⟩⟩
    · have hsingle := (hsb_answers_iff w s true).1 h
      rw [← (hasSingleBit_iff_toNat_eq hx).1 hsingle]
      exact bceil_answers_value w s (bitCeil?_of_hasSingleBit hsingle)
    · rw [← operand_toNat_eq_low] at hrange
      obtain ⟨v, hceil, hv⟩ :=
        bitCeil?_of_not_hasSingleBit hx hrange ((hsb_answers_iff w s false).1 h)
      exact hv ▸ bceil_answers_value w s hceil
  · have hone : s.shiftAmount = 1 := by
      rw [State.shiftAmount, hs]
      rfl
    have hbits : 1 < w.bits := by cases w <;> decide
    have hrot := rotl_answers_value w s
    rw [← operand_toNat_eq_low] at hlow ⊢
    rwa [hone, rotateLeft_one_toNat hbits hlow] at hrot

/-- Settles O38: the operands up to `2^(w-1)` are those with a value; `2^(w-1)`, the last of them,
is its own ceiling. -/
theorem bceilRangeExact : Obligations.BceilRangeExact := by
  refine ⟨fun w hw => ⟨card_bitCeil?_isSome hw, card_bitCeil?_isNone hw⟩, fun w s =>
    ⟨fun h => ?_, fun h => bceil_raises_above_range w s (h ▸ Nat.lt_succ_self _)⟩⟩
  rw [← operand_toNat_eq_low] at h
  have hpos := Width.bits_pos w
  have hsingle := (hasSingleBit_iff_two_pow (s.operand w)).2 ⟨_, by omega, h⟩
  exact h ▸ bceil_answers_value w s (bitCeil?_of_hasSingleBit hsingle)

end Sys2Proof.Proofs
end

section
/-! SUPPORT. Amounts that are congruent modulo the width, and the bits of a rotation at integer
positions; from these the statements of `43_rotation.md` R81 and R84. -/

namespace Sys2Proof.Proofs

open Sys2Proof.Machine Sys2Proof.Laws

section

variable {w : Nat}

/-! ### The effective amount (R81) -/

theorem effectiveAmount_cast (hw : 0 < w) (s : Int) : (effectiveAmount w s : Int) = s % w :=
  Int.toNat_of_nonneg (Int.emod_nonneg s (by omega))

theorem effectiveAmount_natCast (n : Nat) : effectiveAmount w n = n % w := by
  rw [effectiveAmount, ← Int.natCast_mod, Int.toNat_natCast]

theorem effectiveAmount_eq_iff {r : Nat} (hr : r < w) (s : Int) :
    effectiveAmount w s = r ↔ (w : Int) ∣ s - r := by
  refine ⟨?_, effectiveAmount_unique r s hr⟩
  rintro rfl
  exact (effectiveAmount_spec (by omega) s).2

theorem effectiveAmount_add (hw : 0 < w) (s t : Int) :
    effectiveAmount w (s + t) = (effectiveAmount w s + effectiveAmount w t) % w := by
  rw [← effectiveAmount_natCast]
  apply effectiveAmount_congr
  have hsum := (effectiveAmount_spec hw s).2.add (effectiveAmount_spec hw t).2
  rwa [← add_sub_add_comm, ← Nat.cast_add] at hsum

theorem effectiveAmount_neg (hw : 0 < w) (s : Int) :
    effectiveAmount w (-s) = (w - effectiveAmount w s) % w := by
  obtain ⟨hlt, hdvd⟩ := effectiveAmount_spec hw s
  rw [← effectiveAmount_natCast]
  apply effectiveAmount_congr
  rw [Nat.cast_sub hlt.le, show -s - ((w : Int) - effectiveAmount w s) =
    -(s - effectiveAmount w s) - w by ring]
  exact (hdvd.neg_right).sub dvd_rfl

/-- The document's formula with the floored remainder. -/
theorem effectiveAmount_eq_fmod (hw : 0 < w) (s : Int) :
    (effectiveAmount w s : Int) = Int.fmod (Int.fmod s w + w) w := by
  rw [effectiveAmount_cast hw, Int.fmod_eq_emod_of_nonneg _ (Int.natCast_nonneg w),
    Int.fmod_eq_emod_of_nonneg _ (Int.natCast_nonneg w), Int.add_emod_right, Int.emod_emod]

/-- The document's formula with the truncated remainder: adding `w` makes it positive and keeps it
congruent to `s`. -/
theorem effectiveAmount_eq_tmod (hw : 0 < w) (s : Int) :
    (effectiveAmount w s : Int) = Int.tmod (Int.tmod s w + w) w := by
  have hlt := Int.lt_tmod_of_pos s (show (0 : Int) < w by omega)
  have hnonneg : 0 ≤ Int.tmod s w + w := by omega
  rw [effectiveAmount_congr (Int.dvd_self_sub_tmod (x := s)), effectiveAmount_cast hw,
    Int.tmod_eq_emod_of_nonneg hnonneg, Int.add_emod_right]

/-! ### Bits at integer positions -/

/-- The bit of `x` at an integer position, positions `w` apart being the same. -/
def cyclicBit (x : BitVec w) (k : Int) : Bool := x.getLsbD (effectiveAmount w k)

theorem cyclicBit_natCast (x : BitVec w) {j : Nat} (h : j < w) :
    cyclicBit x j = x.getLsbD j := by
  rw [cyclicBit, effectiveAmount_natCast, Nat.mod_eq_of_lt h]

theorem eq_of_cyclicBit_eq {x z : BitVec w} (h : ∀ k, cyclicBit x k = cyclicBit z k) : x = z := by
  apply BitVec.eq_of_getLsbD_eq
  intro j hj
  rw [← cyclicBit_natCast x hj, ← cyclicBit_natCast z hj, h]

/-- R82 at integer positions: a rotation by `s` moves the bit at `k - s` to `k`. -/
@[simp] theorem cyclicBit_rotateLeft (x : BitVec w) (s k : Int) :
    cyclicBit (rotateLeft x s) k = cyclicBit x (k - s) := by
  rcases Nat.eq_zero_or_pos w with rfl | hw
  · rw [cyclicBit, cyclicBit, BitVec.getLsbD_of_ge _ _ (Nat.zero_le _),
      BitVec.getLsbD_of_ge _ _ (Nat.zero_le _)]
  · have hbit := rotateLeft_getLsbD x s _ (effectiveAmount_spec hw (k - s)).1
    rwa [← effectiveAmount_add hw, sub_add_cancel] at hbit

theorem cyclicBit_not (hw : 0 < w) (x : BitVec w) (k : Int) :
    cyclicBit (~~~x) k = !cyclicBit x k := by
  simp [cyclicBit, (effectiveAmount_spec hw k).1]

@[simp] theorem cyclicBit_and (x z : BitVec w) (k : Int) :
    cyclicBit (x &&& z) k = (cyclicBit x k && cyclicBit z k) :=
  BitVec.getLsbD_and

@[simp] theorem cyclicBit_or (x z : BitVec w) (k : Int) :
    cyclicBit (x ||| z) k = (cyclicBit x k || cyclicBit z k) :=
  BitVec.getLsbD_or

theorem cyclicBit_twoPow {i : Nat} (hi : i < w) (k : Int) :
    cyclicBit (BitVec.twoPow w i) k = true ↔ (w : Int) ∣ k - i := by
  rw [cyclicBit, BitVec.getLsbD_twoPow, ← effectiveAmount_eq_iff hi]
  simp [hi, eq_comm]

/-! ### The laws of rotation (R84) -/

theorem rotateLeft_congr (x : BitVec w) {s t : Int} (h : (w : Int) ∣ s - t) :
    rotateLeft x s = rotateLeft x t := by
  rw [rotateLeft_eq, rotateLeft_eq, effectiveAmount_congr h]

@[simp] theorem rotateLeft_zero (x : BitVec w) : rotateLeft x 0 = x :=
  eq_of_cyclicBit_eq (by simp)

theorem rotateLeft_of_dvd (x : BitVec w) {s : Int} (h : (w : Int) ∣ s) : rotateLeft x s = x :=
  (rotateLeft_congr x (by rwa [sub_zero])).trans (rotateLeft_zero x)

@[simp] theorem rotateLeft_rotateLeft (x : BitVec w) (s t : Int) :
    rotateLeft (rotateLeft x s) t = rotateLeft x (s + t) :=
  eq_of_cyclicBit_eq fun k => by simp [sub_sub, add_comm]

theorem rotateRight_eq (x : BitVec w) (s : Int) : rotateRight x s = rotateLeft x (-s) := rfl

theorem rotateRight_congr (x : BitVec w) {s t : Int} (h : (w : Int) ∣ s - t) :
    rotateRight x s = rotateRight x t :=
  rotateLeft_congr x (by rwa [← neg_sub', dvd_neg])

theorem rotateRight_rotateLeft (x : BitVec w) (s : Int) : rotateRight (rotateLeft x s) s = x := by
  simp [rotateRight_eq]

theorem rotateLeft_rotateRight (x : BitVec w) (s : Int) : rotateLeft (rotateRight x s) s = x := by
  simp [rotateRight_eq]

theorem rotateLeft_injective (s : Int) : Function.Injective fun x : BitVec w => rotateLeft x s :=
  Function.LeftInverse.injective (g := fun y => rotateRight y s) fun x => rotateRight_rotateLeft x s

theorem rotateLeft_not (x : BitVec w) (s : Int) : rotateLeft (~~~x) s = ~~~(rotateLeft x s) := by
  rcases Nat.eq_zero_or_pos w with rfl | hw
  · exact Subsingleton.elim _ _
  · exact eq_of_cyclicBit_eq fun k => by simp [cyclicBit_not hw]

theorem rotateLeft_and (x z : BitVec w) (s : Int) :
    rotateLeft (x &&& z) s = rotateLeft x s &&& rotateLeft z s :=
  eq_of_cyclicBit_eq fun k => by simp

theorem rotateLeft_or (x z : BitVec w) (s : Int) :
    rotateLeft (x ||| z) s = rotateLeft x s ||| rotateLeft z s :=
  eq_of_cyclicBit_eq fun k => by simp

/-! ### Byte reversal and rotation (R84, item 8) -/

theorem reverseBytes_getLsbD_of_lt (x : BitVec w) (h8 : 8 ∣ w) {p : Nat} (hp : p < w) :
    (reverseBytes x).getLsbD p = x.getLsbD (8 * (w / 8 - 1 - p / 8) + p % 8) := by
  have hbyte := reverseBytes_getLsbD x h8 (p / 8) (p % 8) (by omega) (by omega)
  rwa [Nat.div_add_mod] at hbyte

theorem reverseBytes_eq_self_of_width_8 (x : BitVec 8) : reverseBytes x = x := by
  apply BitVec.eq_of_getLsbD_eq
  intro p hp
  rw [reverseBytes_getLsbD_of_lt x (by decide) hp]
  congr 1
  omega

theorem rotateLeft_eight_of_width_16 (x : BitVec 16) : rotateLeft x 8 = reverseBytes x := by
  apply BitVec.eq_of_getLsbD_eq
  intro p hp
  rw [reverseBytes_getLsbD_of_lt x (by decide) hp, rotateLeft_getLsbD' x 8 p hp,
    show effectiveAmount 16 8 = 8 from rfl]
  congr 1
  omega

/-- A rotation that reverses the bytes moves bit `w - 8 - 8k`, the first of its byte, to
bit `8k`. -/
theorem dvd_of_rotateLeft_eq_reverseBytes (h8 : 8 ∣ w) {s : Int}
    (h : ∀ x : BitVec w, rotateLeft x s = reverseBytes x) {k : Nat} (hk : k < w / 8) :
    (w : Int) ∣ (8 * k : Nat) - s - (w - 8 - 8 * k : Nat) := by
  have hfrom : 8 * (w / 8 - 1 - k) + 0 = w - 8 - 8 * k := by omega
  have hbyte := reverseBytes_getLsbD (BitVec.twoPow w (w - 8 - 8 * k)) h8 k 0 hk (by decide)
  rw [hfrom, Nat.add_zero, BitVec.getLsbD_twoPow] at hbyte
  rw [← cyclicBit_twoPow (by omega), ← cyclicBit_rotateLeft, h, cyclicBit_natCast _ (by omega),
    hbyte]
  simp [show w - 8 - 8 * k < w by omega]

/-- Bits 0 and 8 of the reversed value would ask for amounts 16 apart. -/
theorem exists_rotateLeft_ne_reverseBytes (h8 : 8 ∣ w) (hw : 16 < w) (s : Int) :
    ∃ x : BitVec w, rotateLeft x s ≠ reverseBytes x := by
  by_contra! h
  have hbit0 := dvd_of_rotateLeft_eq_reverseBytes h8 h (k := 0) (by omega)
  have hbit8 := dvd_of_rotateLeft_eq_reverseBytes h8 h (k := 1) (by omega)
  have hsixteen : ((8 * 1 : Nat) - s - (w - 8 - 8 * 1 : Nat) : Int) -
      ((8 * 0 : Nat) - s - (w - 8 - 8 * 0 : Nat)) = 16 := by omega
  have hle := Int.le_of_dvd (by decide) (hsixteen ▸ hbit8.sub hbit0)
  omega

end

/-! ### Shift amounts on the 32-bit port (R84 item 4, R85) -/

theorem bits_dvd_two_pow_32 (w : Width) : (w.bits : Int) ∣ (2 ^ 32 : Nat) := by
  cases w <;> decide

/-- The sum in wrapping 32-bit arithmetic is congruent to the sum of the integers. -/
theorem bits_dvd_add_toInt_sub (w : Width) (m n : ShiftWord) :
    (w.bits : Int) ∣ m.toInt + n.toInt - (m + n).toInt := by
  rw [BitVec.toInt_add]
  exact (bits_dvd_two_pow_32 w).trans Int.dvd_self_sub_bmod

theorem bits_dvd_toInt_sub_toNat (w : Width) (n : ShiftWord) :
    (w.bits : Int) ∣ n.toInt - n.toNat := by
  rw [BitVec.toInt_eq_toNat_bmod]
  exact (bits_dvd_two_pow_32 w).trans Int.dvd_bmod_sub_self

/-! ### The obligations -/

/-- Settles O39: by the property that defines the effective amount, and the sign of each of the two
remainders. -/
theorem effectiveAmountNormalised : Obligations.EffectiveAmountNormalised := by
  intro w s hw
  obtain ⟨hlt, hdvd⟩ := effectiveAmount_spec hw s
  exact ⟨hlt, hdvd, fun r hr hd => (effectiveAmount_unique r s hr hd).symm,
    effectiveAmount_eq_fmod hw s, effectiveAmount_eq_tmod hw s⟩

/-- Settles O42: a rotation shifts the bits at integer positions, so amounts add up and amounts
congruent modulo the width agree. -/
theorem rotationLaws : Obligations.RotationLaws := by
  refine ⟨fun w x z s t k hw => ?_, fun w x m n => ?_, fun x => ?_, reverseBytes_eq_self_of_width_8,
    fun s => ⟨?_, ?_⟩, ?_, ?_⟩
  · have hperiod : (w : Int) ∣ s + k * w - s := by simp
    refine ⟨rotateRight_rotateLeft x s, rotateLeft_rotateRight x s, rotateLeft_zero x,
      rotateLeft_of_dvd x dvd_rfl, rotateLeft_congr x hperiod,
      rotateRight_congr x hperiod, rotateLeft_rotateLeft x s t, rfl, ?_, rotateLeft_not x s,
      rotateLeft_and x z s, rotateLeft_or x z s, fun h => rotateLeft_injective s h,
      ⟨_, rotateLeft_rotateRight x s⟩, populationCount_rotateLeft x hw s⟩
    rw [rotateRight_eq, neg_neg]
  · rw [rotateLeft_rotateLeft]
    exact rotateLeft_congr x (bits_dvd_add_toInt_sub w m n)
  · rw [← rotateLeft_eight_of_width_16]
    exact ⟨rfl, rotateLeft_congr x (by decide)⟩
  · exact exists_rotateLeft_ne_reverseBytes (by decide) (by decide) s
  · exact exists_rotateLeft_ne_reverseBytes (by decide) (by decide) s
  · decide
  · decide

end Sys2Proof.Proofs
end

section
/-! SUPPORT. The answers of ROTL and ROTR on the ports; from these the statements of
`43_rotation.md` R82, R83, R85 and R86. -/

namespace Sys2Proof.Proofs

open Sys2Proof.Machine Sys2Proof.Claims Sys2Proof.Laws

/-! ### The answers -/

section

variable (w : Width) (s : State)

theorem rotl_answers_rotateLeft :
    Answers (.rotl w) s ((rotateLeft (s.operand w) s.s.toInt).setWidth 64) := rfl

theorem rotr_answers_rotateRight :
    Answers (.rotr w) s ((rotateRight (s.operand w) s.s.toInt).setWidth 64) := rfl

theorem rotr_answers_value :
    AnswersNat (.rotr w) s (rotateRight (s.operand w) s.shiftAmount).toNat :=
  answersNat_of_driveValue rfl

end

/-- A value result has the bits of the value, with zeros above. -/
theorem value_getLsbD {w : Width} (v : BitVec w.bits) (j : Nat) :
    (v.setWidth 64).getLsbD j = v.getLsbD j := by
  have hle := Width.bits_le w
  rw [BitVec.getLsbD_setWidth, Bool.and_eq_right_iff_imp, decide_eq_true_iff]
  exact fun h => (BitVec.lt_of_getLsbD h).trans_le hle

/-- R82, the two shifts as numbers. -/
theorem rotateLeft_toNat {w : Nat} (x : BitVec w) (s : Int) :
    (rotateLeft x s).toNat = ((x.toNat <<< effectiveAmount w s) % 2 ^ w) |||
      (if effectiveAmount w s = 0 then 0 else x.toNat >>> (w - effectiveAmount w s)) := by
  unfold rotateLeft
  by_cases h : effectiveAmount w s = 0
  · simp [h, Nat.mod_eq_of_lt x.isLt]
  · simp [h]

/-- R83: bit `(j + q) mod w` goes to bit `j`. -/
theorem rotateRight_getLsbD {w : Nat} (x : BitVec w) (s : Int) {j : Nat} (h : j < w) :
    (rotateRight x s).getLsbD j = x.getLsbD ((j + effectiveAmount w s) % w) := by
  rw [← cyclicBit_natCast _ h, rotateRight_eq, cyclicBit_rotateLeft, sub_neg_eq_add, cyclicBit,
    effectiveAmount_add (by omega), effectiveAmount_natCast, Nat.mod_eq_of_lt h]

/-! ### The low bits of `s` (R85) -/

theorem toNat_mod_64_eq {m n : ShiftWord} (h : ∀ j, j < 6 → n.getLsbD j = m.getLsbD j) :
    n.toNat % 2 ^ 6 = m.toNat % 2 ^ 6 := by
  apply Nat.eq_of_testBit_eq
  intro j
  rw [Nat.testBit_mod_two_pow, Nat.testBit_mod_two_pow]
  by_cases hj : j < 6
  · rw [BitVec.testBit_toNat, BitVec.testBit_toNat, h j hj]
  · simp [hj]

/-- Shift amounts with the same low bits are congruent modulo every width. -/
theorem bits_dvd_toInt_sub_toInt (w : Width) {m n : ShiftWord}
    (h : ∀ j, j < 6 → n.getLsbD j = m.getLsbD j) : (w.bits : Int) ∣ n.toInt - m.toInt := by
  have h64 : (w.bits : Int) ∣ (2 ^ 6 : Nat) := by cases w <;> decide
  have hlow : (w.bits : Int) ∣ (n.toNat : Int) - m.toNat :=
    h64.trans (Nat.modEq_iff_dvd.1 (toNat_mod_64_eq h).symm)
  have hsum := ((bits_dvd_toInt_sub_toNat w n).add hlow).sub (bits_dvd_toInt_sub_toNat w m)
  rwa [sub_add_sub_cancel, sub_sub_sub_cancel_right] at hsum

/-! ### The obligations -/

/-- Settles O40: the bits and the shifts of the rotation, on port `y`. -/
theorem rotlMovesBitsUp : Obligations.RotlMovesBitsUp := by
  intro w s
  obtain ⟨hlt, hdvd⟩ := effectiveAmount_spec (Width.bits_pos w) s.s.toInt
  refine ⟨encodedAs_of_untagged rfl rfl rfl, _, _, hlt, hdvd, rotl_answers_rotateLeft w s,
    fun i hi => ?_, fun j hj => ?_, ?_⟩
  · rw [value_getLsbD, rotateLeft_getLsbD _ _ i hi, State.operand_getLsbD s w i hi]
  · rw [value_getLsbD, BitVec.getLsbD_of_ge _ _ hj]
  · rw [BitVec.toNat_setWidth_of_le (Width.bits_le w), rotateLeft_toNat, operand_toNat_eq_low]

/-- Settles O41: the bits of the rotation on port `y`; amounts congruent to the negated integer
rotate alike. -/
theorem rotrMovesBitsDown : Obligations.RotrMovesBitsDown := by
  intro w s
  have hw := Width.bits_pos w
  obtain ⟨hlt, hdvd⟩ := effectiveAmount_spec hw s.s.toInt
  refine ⟨encodedAs_of_untagged rfl rfl rfl, _, _, hlt, hdvd, rotr_answers_rotateRight w s,
    fun j hj => ?_, fun j hj => ?_, fun n hn => ?_⟩
  · rw [value_getLsbD, rotateRight_getLsbD _ _ hj, State.operand_getLsbD s w _ (Nat.mod_lt _ hw)]
  · rw [value_getLsbD, BitVec.getLsbD_of_ge _ _ hj]
  · rw [rotateRight_eq, ← rotateLeft_congr (s.operand w) (s := n.toInt) (by rwa [sub_neg_eq_add])]
    exact rotl_answers_rotateLeft w (withS s n)

/-- Settles O43: the shift amount is congruent to its low bits modulo the width, and no other
command reads it. -/
theorem onlyLowShiftBitsMatter : Obligations.OnlyLowShiftBitsMatter := by
  refine ⟨fun w n => ?_, fun i s n hlow => ?_⟩
  · have hamount : effectiveAmount w.bits n.toInt = n.toNat % w.bits := by
      rw [effectiveAmount_congr (bits_dvd_toInt_sub_toNat w n), effectiveAmount_natCast]
    exact ⟨hamount, by rw [effectiveAmount_neg (Width.bits_pos w), hamount]⟩
  · have hcongr : ∀ w : Width, (w.bits : Int) ∣ n.toInt - s.s.toInt := fun w =>
      bits_dvd_toInt_sub_toInt w hlow
    by_cases hrot : ∃ w, i = .rotl w ∨ i = .rotr w
    · obtain ⟨w, rfl | rfl⟩ := hrot
      · refine ⟨_, rotl_answers_rotateLeft w s, ?_⟩
        rw [← rotateLeft_congr _ (hcongr w)]
        exact rotl_answers_rotateLeft w (withS s n)
      · refine ⟨_, rotr_answers_rotateRight w s, ?_⟩
        rw [← rotateRight_congr _ (hcongr w)]
        exact rotr_answers_rotateRight w (withS s n)
    · exact unusedPortsIgnored.1 i s n (fun w h => hrot ⟨w, .inl h⟩) fun w h => hrot ⟨w, .inr h⟩

/-- Settles O44: -2147483648 is 0 and 2147483647 is -1 modulo every width. -/
theorem extremeShiftAmounts : Obligations.ExtremeShiftAmounts := by
  intro w s
  refine ⟨fun hs => ?_, fun hs => ?_⟩
  · have hdvd : (w.bits : Int) ∣ s.shiftAmount := by
      rw [State.shiftAmount, hs]
      cases w <;> decide
    have hrotr := rotr_answers_value w s
    have hrotl := rotl_answers_value w s
    rw [rotateRight_eq, rotateLeft_of_dvd _ (dvd_neg.2 hdvd), operand_toNat_eq_low] at hrotr
    rw [rotateLeft_of_dvd _ hdvd, operand_toNat_eq_low] at hrotl
    exact ⟨hrotr, hrotl⟩
  · have hamount : effectiveAmount w.bits s.s.toInt = w.bits - 1 := by
      rw [hs]
      cases w <;> decide
    have hdvd : (w.bits : Int) ∣ s.s.toInt - -1 := by
      rw [hs]
      cases w <;> decide
    refine ⟨hamount, _, rotl_answers_rotateLeft w s, ?_⟩
    rw [rotateLeft_congr _ hdvd]
    exact rotr_answers_rotateRight w (withS s 1)

end Sys2Proof.Proofs
end

section
/-! SUPPORT. Byte reversal at a general width, byte by byte and as a number; from these the statement
of `44_endianness.md` R90. -/

namespace Sys2Proof.Proofs

open Sys2Proof.Machine Sys2Proof.Claims Sys2Proof.Laws

/-! ### Byte reversal (R90, R91) -/

section

variable {w : Nat} (x : BitVec w)

/-- Byte `k` as a number. -/
theorem byteOf_toNat (k : Nat) : (byteOf x k).toNat = x.toNat / 2 ^ (8 * k) % 2 ^ 8 := by
  rw [byteOf, BitVec.extractLsb'_toNat, Nat.shiftRight_eq_div_pow]

/-- The low `n` bytes as a number. -/
theorem toNat_mod_eq_sum_bytes (n : Nat) :
    x.toNat % 2 ^ (8 * n) =
      ((List.range n).map fun k => (byteOf x k).toNat * 2 ^ (8 * k)).sum := by
  induction n with
  | zero => simp [Nat.mod_one]
  | succ n ih =>
    rw [List.sum_range_succ, ← ih, byteOf_toNat, Nat.mul_succ, Nat.pow_add, Nat.mod_mul,
      Nat.mul_comm (2 ^ (8 * n))]

/-- Byte `k` of the reversal is byte `n-1-k` of the value. -/
theorem byteOf_reverseBytes (h8 : 8 ∣ w) {k : Nat} (hk : k < w / 8) :
    byteOf (reverseBytes x) k = byteOf x (w / 8 - 1 - k) := by
  apply BitVec.eq_of_getLsbD_eq
  intro j hj
  rw [byteOf_getLsbD _ _ _ hj, byteOf_getLsbD _ _ _ hj, reverseBytes_getLsbD x h8 k j hk hj]

/-- The number of R90: the sum of the bytes of the reversal, taken from its other end. -/
theorem reverseBytes_toNat (h8 : 8 ∣ w) :
    (reverseBytes x).toNat =
      ((List.range (w / 8)).map fun k => (byteOf x k).toNat * 2 ^ (8 * (w / 8 - 1 - k))).sum := by
  have hlt : (reverseBytes x).toNat < 2 ^ (8 * (w / 8)) := by
    rw [Nat.mul_div_cancel' h8]
    exact (reverseBytes x).isLt
  calc (reverseBytes x).toNat
    _ = ((List.range (w / 8)).map fun k =>
          (byteOf (reverseBytes x) k).toNat * 2 ^ (8 * k)).sum := by
        rw [← toNat_mod_eq_sum_bytes, Nat.mod_eq_of_lt hlt]
    _ = ((List.range (w / 8)).map fun k =>
          (byteOf (reverseBytes x) (w / 8 - 1 - k)).toNat * 2 ^ (8 * (w / 8 - 1 - k))).sum :=
        (Finset.sum_range_reflect (fun k => (byteOf (reverseBytes x) k).toNat * 2 ^ (8 * k))
          (w / 8)).symm
    _ = ((List.range (w / 8)).map fun k => (byteOf x k).toNat * 2 ^ (8 * (w / 8 - 1 - k))).sum := by
        refine congrArg List.sum (List.map_congr_left fun k hk => ?_)
        have hbyte : k < w / 8 := List.mem_range.1 hk
        rw [byteOf_reverseBytes x h8 (by omega), Nat.sub_sub_self (by omega)]

end

/-- Settles O45: the bits are those of `reverseBytes_getLsbD`, and a number is the sum of its
bytes. -/
theorem byteReversalAlgorithm : Obligations.ByteReversalAlgorithm := fun _ x h8 =>
  ⟨fun _ hk => byteOf_reverseBytes x h8 hk, reverseBytes_getLsbD x h8, reverseBytes_toNat x h8⟩

end Sys2Proof.Proofs
end

section
/-! SUPPORT. The answers of BSWAP, ENDCONV and ENDEQ on the ports and the words of theirs that are
illegal; from these the statements of `44_endianness.md` R91 to R94, R96, R97 and R99. -/

namespace Sys2Proof.Proofs

open Sys2Proof.Machine Sys2Proof.Claims Sys2Proof.Laws

/-! ### The orders that tags resolve to (R88, R89) -/

/-- The model resolves a tag as R89 does. -/
theorem resolve_eq_tagOrder (s : State) (t : OrderTag) : resolve s.config t = tagOrder s t := by
  cases t <;> rfl

theorem sameOrder_iff (s : State) (t u : OrderTag) :
    sameOrder s.config t u = true ↔ tagOrder s t = tagOrder s u := by
  rw [sameOrder, decide_eq_true_iff, resolve_eq_tagOrder, resolve_eq_tagOrder]

theorem sameOrder_comm (c : Config) (t u : OrderTag) : sameOrder c t u = sameOrder c u t :=
  decide_eq_decide.2 eq_comm

/-- There are two orders, so one that is not big is little. -/
theorem ne_big_iff (o : ByteOrder) : o ≠ .big ↔ o = .little := by cases o <;> decide

theorem ne_little_iff (o : ByteOrder) : o ≠ .little ↔ o = .big := by cases o <;> decide

/-! ### The conversion at a general width (R92) -/

section

variable {w : Nat} (c : Config) (x : BitVec w) (t u : OrderTag)

theorem convertOrder_comm : convertOrder c x t u = convertOrder c x u t := by
  rw [convertOrder, convertOrder, sameOrder_comm]

/-- The same conversion twice is the identity or two reversals (R97). -/
theorem convertOrder_convertOrder (h8 : 8 ∣ w) :
    convertOrder c (convertOrder c x t u) t u = x := by
  unfold convertOrder
  by_cases h : sameOrder c t u = true
  · rw [if_pos h, if_pos h]
  · rw [if_neg h, if_neg h, reverseBytes_reverseBytes x h8]

end

/-- One byte is its own reversal (R96). -/
theorem reverseBytes_operand_w8 (s : State) : reverseBytes (s.operand .w8) = s.operand .w8 :=
  reverseBytes_eq_self_of_width_8 _

/-- Hence no conversion changes one byte (R96). -/
theorem convertOrder_operand_w8 (c : Config) (s : State) (t u : OrderTag) :
    convertOrder c (s.operand .w8) t u = s.operand .w8 := by
  rw [convertOrder, reverseBytes_operand_w8, ite_self]

/-- Another value on port `a` leaves the parameters. -/
@[simp] theorem withA_config (s : State) (a : BusWord) : (withA s a).config = s.config := rfl

/-! ### The answers -/

section

variable (w : Width) (t u : OrderTag) (s : State)

theorem bswap_answers_reverseBytes :
    Answers (.bswap w) s ((reverseBytes (s.operand w)).setWidth 64) := rfl

theorem bswap_answers_value : AnswersNat (.bswap w) s (reverseBytes (s.operand w)).toNat :=
  answersNat_of_driveValue rfl

theorem endconv_answers_convertOrder :
    Answers (.endconv w t u) s ((convertOrder s.config (s.operand w) t u).setWidth 64) := rfl

theorem endconv_answers_value :
    AnswersNat (.endconv w t u) s (convertOrder s.config (s.operand w) t u).toNat :=
  answersNat_of_driveValue rfl

theorem endeq_answers_truth :
    AnswersNat (.endeq t u) s (sameOrder s.config t u).toNat := by
  rw [AnswersNat, Answers, exec, execEndeq, State.driveTruth_eq]
  cases sameOrder s.config t u <;> rfl

theorem endconv_comm : exec (.endconv w t u) s = exec (.endconv w u t) s := by
  rw [exec, execEndconv, convertOrder_comm]
  rfl

/-- ENDCONV reverses the bytes exactly when its tags resolve to different orders, in whatever words
that is said. -/
theorem endconv_reversesExactlyWhen {w : Width} {t u : OrderTag} {s : State} {cond : Prop}
    (hcond : tagOrder s t ≠ tagOrder s u ↔ cond) :
    ReversesExactlyWhen (.endconv w t u) w s cond := by
  rw [← hcond, ne_eq, ← sameOrder_iff]
  refine ⟨fun h => ⟨_, endconv_answers_convertOrder w t u s, ?_⟩, fun h => ?_⟩
  · rw [convertOrder, if_neg h]
    exact bswap_answers_reverseBytes w s
  · have hvalue := endconv_answers_value w t u s
    rwa [convertOrder, if_pos (not_not.1 h), operand_toNat_eq_low] at hvalue

/-- The answer of ENDCONV, on port `a`, is converted back by the same tags. -/
theorem endconv_answers_back :
    AnswersNat (.endconv w t u)
      (withA s ((convertOrder s.config (s.operand w) t u).setWidth 64)) (low s w) := by
  have hback := endconv_answers_value w t u
    (withA s ((convertOrder s.config (s.operand w) t u).setWidth 64))
  rwa [operand_withA_value, withA_config, convertOrder_convertOrder _ _ _ _ (Width.eight_dvd w),
    operand_toNat_eq_low] at hback

end

/-! ### The words (`30_encoding.md` R39, R49) -/

theorem fieldOfTag_eq_tagCode (t : OrderTag) : fieldOfTag t = tagCode t := by cases t <;> rfl

/-- A word that one of the six conditions rejects answers ILLEGAL. -/
theorem step_of_illegalByRule {s : State} (hd : s.driven = true)
    (hill : IllegalByRule s.config.strictMode s.cmd) : step s = .next (showsError s .illegal) := by
  obtain ⟨hf, -⟩ | ⟨-, -, hstep⟩ | ⟨-, i, hdec, -⟩ := step_cases s
  · simp [hd] at hf
  · exact hstep
  · exact absurd hill ((decode_accepts_iff _ _).1 ⟨i, hdec⟩)

/-- A word of ENDCONV with a reserved tag, or in strict mode. -/
theorem step_endconv_word_illegal {s : State} (hd : s.driven = true) (hop : s.cmd.toNat % 16 = 9)
    (hwhy : s.cmd.toNat / 64 % 4 = 3 ∨ s.cmd.toNat / 256 % 4 = 3 ∨ s.config.strictMode = true) :
    step s = .next (showsError s .illegal) := by
  refine step_of_illegalByRule hd (.inr (.inr (.inr ?_)))
  obtain hta | htb | hstrict := hwhy
  · exact .inl ⟨.inl hop, .inl hta⟩
  · exact .inl ⟨.inl hop, .inr htb⟩
  · exact .inr (.inr ⟨hstrict, .inr hop⟩)

/-- A word of ENDEQ with a reserved tag or a width. -/
theorem step_endeq_word_illegal {s : State} (hd : s.driven = true) (hop : s.cmd.toNat % 16 = 14)
    (hwhy : s.cmd.toNat / 64 % 4 = 3 ∨ s.cmd.toNat / 256 % 4 = 3 ∨ s.cmd.toNat / 16 % 4 ≠ 0) :
    step s = .next (showsError s .illegal) := by
  refine step_of_illegalByRule hd (.inr (.inr (.inr ?_)))
  obtain hta | htb | hwsel := hwhy
  · exact .inl ⟨.inr hop, .inl hta⟩
  · exact .inl ⟨.inr hop, .inr htb⟩
  · exact .inr (.inl ⟨hop, hwsel⟩)

/-! ### The obligations -/

/-- Settles O46: BSWAP answers the reversal of its operand, and the reversal of that is the
operand. -/
theorem bswapReversesBytes : Obligations.BswapReversesBytes := by
  intro w s
  have h8 := Width.eight_dvd w
  refine ⟨encodedAs_of_untagged rfl rfl rfl,
    ⟨_, bswap_answers_reverseBytes w s, fun k j hk hj => ?_, fun j hj => ?_, ?_, ?_⟩,
    fun hd hstrict hcmd => step_conversion_strict hd hstrict rfl hcmd⟩
  · rw [value_getLsbD, reverseBytes_getLsbD _ h8 k j hk hj, State.operand_getLsbD s w _ (by omega)]
  · rw [value_getLsbD, BitVec.getLsbD_of_ge _ _ hj]
  · have hback := bswap_answers_value w (withA s ((reverseBytes (s.operand w)).setWidth 64))
    rwa [operand_withA_value, reverseBytes_reverseBytes _ h8, operand_toNat_eq_low] at hback
  · rintro rfl
    rw [reverseBytes_operand_w8]
    exact operand_value_toNat s .w8

/-- Settles O47: ENDCONV compares what its tags resolve to, and that comparison is symmetric. -/
theorem endconvComparesOrders : Obligations.EndconvComparesOrders := by
  refine fun w t u s => ⟨fun wsel hbits => ?_, endconv_reversesExactlyWhen Iff.rfl,
    endconv_comm w t u s, step_endconv_word_illegal⟩
  rw [encode_toNat, ← fieldOfWidth_eq_of_bits hbits, ← fieldOfTag_eq_tagCode,
    ← fieldOfTag_eq_tagCode]
  rfl

/-- Settles O48: ENDEQ answers the comparison, and strict mode does not remove it. -/
theorem endeqComparesOrders : Obligations.EndeqComparesOrders := by
  refine fun t u s => ⟨?_, fun hsame => ?_, fun hdiff => ?_, fun strict => ?_,
    step_endeq_word_illegal⟩
  · rw [encode_toNat, ← fieldOfTag_eq_tagCode, ← fieldOfTag_eq_tagCode]
    rfl
  · have htruth := endeq_answers_truth t u s
    rwa [(sameOrder_iff s t u).2 hsame] at htruth
  · have htruth := endeq_answers_truth t u s
    rwa [Bool.eq_false_iff.2 (mt (sameOrder_iff s t u).1 hdiff)] at htruth
  · exact encodeThenDecode strict _ ((wellFormed_iff _ _).2 fun _ => rfl)

/-- Settles O49: each form is ENDCONV with fixed tags, and an order that differs from one of the two
is the other. -/
theorem namedConversions : Obligations.NamedConversions := fun _ _ _ =>
  ⟨endconv_reversesExactlyWhen (ne_big_iff _), endconv_reversesExactlyWhen (ne_big_iff _),
    endconv_reversesExactlyWhen (ne_little_iff _), endconv_reversesExactlyWhen (ne_little_iff _),
    endconv_reversesExactlyWhen Iff.rfl,
    endconv_reversesExactlyWhen (ne_big_iff _), endconv_reversesExactlyWhen (ne_little_iff _),
    endconv_reversesExactlyWhen (ne_self_iff_false _)⟩

/-- Settles O50: one byte is its own reversal; the word is decoded as at any width. -/
theorem singleByteUnchanged : Obligations.SingleByteUnchanged := by
  refine ⟨fun t u s => ⟨?_, ?_⟩, fun s hd hword => step_endconv_word_illegal hd (by omega)⟩
  · have hvalue := endconv_answers_value .w8 t u s
    rwa [convertOrder_operand_w8, operand_toNat_eq_low] at hvalue
  · have hvalue := bswap_answers_value .w8 s
    rwa [reverseBytes_operand_w8, operand_toNat_eq_low] at hvalue

/-- Settles O51: the same conversion twice restores the operand, and exchanging its tags changes
nothing. -/
theorem conversionRoundTrip : Obligations.ConversionRoundTrip := by
  intro w t u s
  refine ⟨_, endconv_answers_convertOrder w t u s, ?_, endconv_answers_back w t u s⟩
  rw [AnswersNat, Answers, endconv_comm]
  exact endconv_answers_back w t u s

/-- Settles O52: each entry of the table is the comparison of its row's tags. -/
theorem conversionTable : Obligations.ConversionTable := by
  intro row hrow w s identity
  have hentry : identity = sameOrder s.config row.1 row.2.1 := by
    simp only [List.mem_cons, List.not_mem_nil, or_false] at hrow
    obtain rfl | rfl | rfl | rfl | rfl | rfl | rfl | rfl | rfl := hrow
    all_goals
      cases horder : s.config.nativeOrder <;> simp [identity, sameOrder, resolve, horder]
  rw [hentry]
  refine ⟨endconv_reversesExactlyWhen ?_, endeq_answers_truth _ _ s⟩
  rw [ne_eq, ← sameOrder_iff, Bool.not_eq_true]

end Sys2Proof.Proofs
end

section
/-! SUPPORT. When a step shows each of the two errors and when a result, and how the lines of a script
follow one another; from these the statements of `60_exceptions.md`. -/

namespace Sys2Proof.Proofs

open Sys2Proof.Machine Sys2Proof.Claims Sys2Proof.Laws

/-! ### The outcome of a step (`60_exceptions.md` R101, R102, R106) -/

/-- On driven inputs a BCEIL above its range answers PRECOND. -/
theorem step_of_bceil_above_range {s : State} {w : Width} (hd : s.driven = true)
    (hdec : decode s.config.strictMode s.cmd = .ok (.bceil w))
    (hlt : 2 ^ (w.bits - 1) < low s w) : step s = .next (showsError s .precond) :=
  (stepRunsDecodedCommand s _ hd hdec).trans (bceil_raises_above_range w s hlt)

/-- A command fails in one way only: as BCEIL above its range. -/
theorem exec_shows_result {i : Instr} {s : State}
    (hrange : ∀ w, i = .bceil w → low s w ≤ 2 ^ (w.bits - 1)) :
    ∃ y, exec i s = .next (shows s y) := by
  obtain ⟨r, hr, hfit⟩ := exec_answer_fits i s
  match r, hfit with
  | .ok y, _ => exact ⟨y, hr⟩
  | .error .precond, ⟨w, hi, hlt⟩ => exact absurd (hrange w hi) hlt.not_ge

section

variable {s t : State} (h : step s = .next t)
include h

/-- After a step the outputs show an answer, and it fits the inputs. -/
theorem step_out : ∃ r, t.out = some r ∧ AnswerFitsInputs s r := by
  obtain ⟨r, hr, hfit⟩ := step_answer_fits (step_next h).1
  obtain rfl : s.answer r = t := by simpa [hr] using h
  exact ⟨r, State.answer_out s r, hfit⟩

theorem fits_of_step_out {r : Answer} (hout : t.out = some r) : AnswerFitsInputs s r := by
  obtain ⟨r', hr', hfit⟩ := step_out h
  obtain rfl : r' = r := by simpa [hr'] using hout
  exact hfit

theorem step_out_of_step_eq {e : ErrorKind} (he : step s = .next (showsError s e)) :
    t.out = some (.error e) := by
  obtain rfl : showsError s e = t := by simpa [he] using h
  rfl

/-- A step shows ILLEGAL exactly for the illegal words (R101). -/
theorem step_out_illegal_iff :
    t.out = some (.error .illegal) ↔ IllegalByRule s.config.strictMode s.cmd := by
  obtain ⟨hrule, -⟩ := illegalWordsAreTheSixConditions
  exact ⟨fun hout => (hrule _ _).1 (fits_of_step_out h hout),
    fun hill => step_out_of_step_eq h (step_of_illegalByRule (step_next h).1 hill)⟩

/-- A step shows PRECOND exactly for a legal BCEIL above its range (R102). -/
theorem step_out_precond_iff :
    t.out = some (.error .precond) ↔
      ∃ w, decode s.config.strictMode s.cmd = .ok (.bceil w) ∧ 2 ^ (w.bits - 1) < low s w :=
  ⟨fun hout => fits_of_step_out h hout, fun ⟨_, hdec, hlt⟩ =>
    step_out_of_step_eq h (step_of_bceil_above_range (step_next h).1 hdec hlt)⟩

end

/-! ### The codes on port `err` (R103) -/

theorem errPort_of_out {t : State} {r : Answer} (h : t.out = some r) :
    t.errPort = some r.errCode := by
  rw [State.errPort, h, Option.map_some]

theorem yPort_of_out {t : State} {r : Answer} (h : t.out = some r) : t.yPort = r.result? := by
  rw [State.yPort, h, Option.bind_some]

/-- What each code says of the answer it stands for; the code 3 stands for none. -/
theorem errCode_meaning (r : Answer) :
    (r.errCode = 0 ↔ ∃ y, r.result? = some y) ∧ (r.errCode = 1 ↔ r = .error .illegal) ∧
      (r.errCode = 2 ↔ r = .error .precond) ∧
      (r.errCode = 0 ∨ r.errCode = 1 ∨ r.errCode = 2) := by
  match r with
  | .ok y => simp [Answer.errCode, Answer.result?]
  | .error .illegal => simp [Answer.errCode, Answer.result?]
  | .error .precond => simp [Answer.errCode, Answer.result?]

/-! ### The obligations on one transaction -/

/-- Settles O9: the answer of a step fits its inputs, and an illegal word has no other answer. -/
theorem illegalWordAnswersIllegal : Obligations.IllegalWordAnswersIllegal := fun _ hd =>
  ⟨step_of_illegalByRule hd, fun _ h => (step_out_illegal_iff h).1⟩

/-- Settles O10: BCEIL has no value above its range, and no other command raises. -/
theorem precondExactlyAboveRange : Obligations.PrecondExactlyAboveRange := fun _ hd =>
  ⟨fun _ => step_of_bceil_above_range hd, fun _ h => (step_out_precond_iff h).1⟩

/-- Settles O11: a bit above the width field of an untagged command breaks condition 1 or
condition 3 of R49, and neither looks at port `a`. -/
theorem legalityDecidedFirst : Obligations.LegalityDecidedFirst := by
  intro s hd hop hreserved a
  have hill : IllegalByRule s.config.strictMode s.cmd := by
    unfold IllegalByRule
    omega
  exact step_of_illegalByRule (s := withA s a) hd hill

/-- Settles O12: the step runs the command, which is no BCEIL above its range. -/
theorem nothingElseFails : Obligations.NothingElseFails := by
  intro s i hd hdec hrange
  rw [stepRunsDecodedCommand s i hd hdec]
  exact exec_shows_result hrange

/-- Settles O23: the code names the kind of the one answer that a step shows. -/
theorem errPortCodes : Obligations.ErrPortCodes := by
  intro s t h
  obtain ⟨r, hr, -⟩ := step_out h
  rw [← step_out_illegal_iff h, ← step_out_precond_iff h]
  simp only [errPort_of_out hr, yPort_of_out hr, hr, Option.some.injEq]
  exact errCode_meaning r

/-- Settles O57: a presented command keeps nothing of the state before but the parameters, and
raising an error does not change those. -/
theorem errorsAreNotSticky : Obligations.ErrorsAreNotSticky := fun s e c =>
  congrArg step (present_eq_of_config_eq (State.answer_config s (.error e)) c)

/-! ### The outcomes of a script (R115) -/

/-- A script that runs to its end has one outcome for each line. -/
theorem length_of_runScript {t : State} {answers : List Answer} (lines : List Line) :
    ∀ {s : State} {before : List Answer}, runScript s before lines = some (t, answers) →
      answers.length = before.length + lines.length := by
  induction lines with
  | nil =>
    intro s before h
    cases h
    rfl
  | cons l rest ih =>
    intro s before h
    obtain ⟨c, r, -, -, hrest⟩ := runScript_cons h
    rw [ih hrest, List.length_append, List.length_singleton, List.length_cons]
    omega

theorem isFault_eq_false_iff (r : Answer) : r.isFault = false ↔ ∃ y, r = .ok y := by
  cases r <;> simp [Answer.isFault]

theorem noLineRaised_iff (answers : List Answer) :
    noLineRaised answers = true ↔ ∀ k, k < answers.length → ∃ y, answers[k]? = some (.ok y) := by
  simp only [noLineRaised, List.all_eq_true, Bool.not_eq_true', isFault_eq_false_iff,
    List.forall_mem_iff_forall_getElem]
  refine forall₂_congr fun k hk => ?_
  rw [List.getElem?_eq_getElem hk]
  simp only [Option.some.injEq]

theorem noLineRaised_concat_ok {before : List Answer} (h : noLineRaised before = true)
    (y : BusWord) : noLineRaised (before ++ [.ok y]) = true := by
  simpa [noLineRaised, Answer.isFault] using h

/-! ### The lines of a script that are within range -/

/-- The command of a well-formed line with a literal operand. -/
theorem command?_of_literal {l : Line} {answers : List Answer} {v : Nat}
    (hwf : l.wellFormed answers.length = true) (hop : l.operand = .literal v) :
    l.command? answers =
      some { cmd := l.op.word, a := BitVec.ofNat 64 v, s := BitVec.ofInt 32 l.shift } := by
  simp [Line.command?, Line.operandValue?, hwf, hop]

/-- A line that has a command is one transaction; the rest of the script goes on from it. -/
theorem runScript_cons_of_step {s : State} {before : List Answer} {l : Line} {c : Command}
    {r : Answer} (rest : List Line) (hc : l.command? before = some c)
    (hstep : step (s.present c) = .next ((s.present c).answer r)) :
    runScript s before (l :: rest) = runScript ((s.present c).answer r) (before ++ [r]) rest := by
  simp [runScript, hc, hstep]

/-- The literal on port `a` as the operand of width `w`. -/
theorem low_present_literal (s : State) (w : Width) (c : CommandWord) (v : Nat) (n : ShiftWord) :
    low (s.present { cmd := c, a := BitVec.ofNat 64 v, s := n }) w = v % 2 ^ w.bits := by
  rw [low, State.present_a, BitVec.toNat_ofNat]
  exact Nat.mod_mod_of_dvd v (pow_dvd_pow 2 (Width.bits_le w))

/-- Line number `earlier + 1` meets R53, has a literal operand and a legal word, and is no BCEIL
above its range. -/
def InRange (strict : Bool) (earlier : Nat) (l : Line) : Prop :=
  l.wellFormed earlier = true ∧
    ∃ v i, l.operand = .literal v ∧ decode strict l.op.word = .ok i ∧
      ∀ w, i = .bceil w → v % 2 ^ w.bits ≤ 2 ^ (w.bits - 1)

/-- A line within range has a result. -/
theorem step_of_inRange {s : State} {before : List Answer} {l : Line}
    (h : InRange s.config.strictMode before.length l) :
    ∃ c y, l.command? before = some c ∧
      step (s.present c) = .next ((s.present c).answer (.ok y)) := by
  obtain ⟨hwf, v, i, hop, hdec, hrange⟩ := h
  obtain ⟨y, hstep⟩ := nothingElseFails
    (s.present { cmd := l.op.word, a := BitVec.ofNat 64 v, s := BitVec.ofInt 32 l.shift })
    i rfl hdec fun w hi => (low_present_literal ..).trans_le (hrange w hi)
  exact ⟨_, y, command?_of_literal hwf hop, hstep⟩

/-- Lines within range run to the end of the script, and none of them raises. -/
theorem runScript_of_inRange (lines : List Line) :
    ∀ (s : State) {before : List Answer}, noLineRaised before = true →
      (∀ k l, lines[k]? = some l → InRange s.config.strictMode (before.length + k) l) →
      ∃ t answers, runScript s before lines = some (t, answers) ∧ noLineRaised answers = true := by
  induction lines with
  | nil => exact fun s before hgood _ => ⟨s, before, rfl, hgood⟩
  | cons l rest ih =>
    intro s before hgood hlines
    obtain ⟨c, y, hc, hstep⟩ := step_of_inRange (hlines 0 l rfl)
    rw [runScript_cons_of_step rest hc hstep]
    refine ih _ (noLineRaised_concat_ok hgood y) fun k l' hl => ?_
    have hnext := hlines (k + 1) l' hl
    rwa [show before.length + (k + 1) = (before ++ [Answer.ok y]).length + k by simp; omega]
      at hnext

/-- Settles O56: a script that runs has one outcome for each line, and a line within range has a
result. -/
theorem scriptsInRangeEndWell : Obligations.ScriptsInRangeEndWell := by
  refine ⟨fun s lines => ?_, fun s lines hlines => runScript_of_inRange lines s rfl fun k l hl => ?_⟩
  · refine exists_congr fun t => exists_congr fun answers => and_congr_right fun hrun => ?_
    rw [noLineRaised_iff, length_of_runScript lines hrun, List.length_nil, Nat.zero_add]
  · rw [List.length_nil, Nat.zero_add]
    exact hlines k l hl

end Sys2Proof.Proofs
end

section
/-! SUPPORT. When a step answers and when it stops, and which scripts run to their end; from these the
statements of `70_reset_and_hazards.md`. -/

namespace Sys2Proof.Proofs

open Sys2Proof.Machine Sys2Proof.Laws

/-- A presented command is answered, whatever its word and operand. -/
theorem step_present_answers (s : State) (c : Command) :
    ∃ r, step (s.present c) = .next ((s.present c).answer r) := by
  obtain ⟨r, hstep, -⟩ := step_answer_fits (State.present_driven s c)
  exact ⟨r, hstep⟩

/-- Before the inputs are driven a step stops. -/
theorem step_of_undriven {s : State} (hd : s.driven = false) :
    step s = .fault .inputsNotDriven := by
  obtain ⟨-, hstep⟩ | ⟨hdriven, -⟩ | ⟨hdriven, -⟩ := step_cases s
  · exact hstep
  all_goals simp [hd] at hdriven

/-- A step stops for no other reason: on driven inputs it answers. -/
theorem undriven_of_step_fault {s : State} {f : Fault} (h : step s = .fault f) :
    s.driven = false := by
  by_contra hdriven
  obtain ⟨r, hstep, -⟩ := step_answer_fits (Bool.eq_true_of_not_eq_false hdriven)
  simp [hstep] at h

/-- A script that goes on after the outcomes `before` runs to its end when its lines are well formed
and their operands literal: no line waits for an outcome, so each has a command, and it is answered. -/
theorem runScript_ends_of_literal (lines : List Line) :
    ∀ (s : State) (before : List Answer),
      (∀ (k : Nat) (l : Line), lines[k]? = some l →
        l.wellFormed (before.length + k) = true ∧ ∃ v, l.operand = .literal v) →
      ∃ t answers, runScript s before lines = some (t, answers) := by
  induction lines with
  | nil => exact fun s before _ => ⟨s, before, rfl⟩
  | cons l rest ih =>
    intro s before hlines
    obtain ⟨hwf, v, hop⟩ := hlines 0 l rfl
    obtain ⟨r, hstep⟩ := step_present_answers s
      { cmd := l.op.word, a := BitVec.ofNat 64 v, s := BitVec.ofInt 32 l.shift }
    rw [runScript_cons_of_step rest (command?_of_literal hwf hop) hstep]
    refine ih _ (before ++ [r]) fun k l' hl => ?_
    rw [List.length_append, List.length_singleton, Nat.add_assoc, Nat.add_comm 1]
    exact hlines (k + 1) l' hl

/-! ### The obligations -/

/-- Settles O13: presenting a command drives the inputs, and on driven inputs every step answers; by
induction on the lines, so does a whole script that waits for no outcome. -/
theorem everyTransactionCompletes : Obligations.EveryTransactionCompletes := by
  have hlength (s t : State) (lines : List Line) (answers : List Answer)
      (hrun : runScript s [] lines = some (t, answers)) : answers.length = lines.length := by
    rw [length_of_runScript lines hrun, List.length_nil, Nat.zero_add]
  refine ⟨step_present_answers, fun s lines hlines => ?_, hlength⟩
  obtain ⟨t, answers, hrun⟩ := runScript_ends_of_literal lines s [] fun k l hl => by
    rw [List.length_nil, Nat.zero_add]
    exact hlines k l hl
  exact ⟨t, answers, hrun, hlength s t lines answers hrun⟩

/-- Settles O14: of the ways a step can go, only the one with undriven inputs stops. -/
theorem undrivenInputsFault : Obligations.UndrivenInputsFault :=
  fun _ => ⟨step_of_undriven, fun _ => undriven_of_step_fault⟩

end Sys2Proof.Proofs
end
